-- ==== Sys2Proof/Word.lean ====
section
/-! DEFINITION. The two widths of the hardware: the addressable byte and the 32-bit word
(00_scope.md R5: BYTE = 8, XLEN = 32). -/

namespace Sys2Proof

/-- A byte: `BYTE` = 8 bits (R5), the `u8` of the spec's notation. -/
abbrev Byte := BitVec 8

/-- A word: `XLEN` = 32 bits (R5), the `u32` of the spec's notation. -/
abbrev Word := BitVec 32

end Sys2Proof
end

