-- ==== Sys2Proof/Config.lean ====
section
/-! DEFINITION. The fixed parameters of the hardware (00_scope.md R5) and the two launch parameters that
`State.reset` needs a value for (00_scope.md R6). -/

namespace Sys2Proof.Config

/-- `MEM_SIZE` = 2^20 bytes of memory (R5). -/
abbrev memSize : Nat := 1048576

/-- `NOPCODE`: the dispatch table has one entry for each value of the opcode byte (R5). -/
abbrev nOpcode : Nat := 256

/-- `NHANDLED`: how many opcode byte values have a handler (R5, 90_conflicts.md C1). -/
abbrev nHandled : Nat := 10

/-- `HALT_ADDR`: the value of `eip` that halts the core when a handler leaves it there (R5). -/
abbrev haltAddr : Word := 0

/-- The length in bytes of the longest instruction (30_encoding.md R51). -/
abbrev maxInstrBytes : Nat := 5

/-- The `INIT_EIP` of `State.reset`. DESIGN CHOICE, unsafe (log 1): R6 and R25 leave it to the host;
`State.resetAt` takes it as an argument. -/
def initEip : Word := 0

/-- The `INIT_ESP` of `State.reset`. DESIGN CHOICE, unsafe (log 2): R6 and R25 leave it to the host;
`State.resetAt` takes it as an argument. -/
def initEsp : Word := 0

end Sys2Proof.Config
end

