-- ==== Sys2Proof/Syntax.lean ====
section
/-! DEFINITION. Instructions as syntax: the three rows of spec/opcode_table.json, the eight register names and
the entries of the dispatch table. -/

namespace Sys2Proof

/-- The register-identifier enumeration, in the spec's order (10_state.md R11). It is closed and total: no other
register can be named (R12). -/
inductive Reg where
  | eax | ecx | edx | ebx | esp | ebp | esi | edi
  deriving DecidableEq, Repr

/-- One constructor for each row of spec/opcode_table.json, with its operands as the spec's handlers see them.
A displacement is the signed integer that `fetch_i8` and `signed_32` give (40_fetch_decode_dispatch.md R66,
42_jmp_rel.md R87), so its range is a check of WellFormed (log 12). -/
inductive Instr where
  /-- `MOV r32, imm32` (41_mov_r32_imm32.md R85). -/
  | movR32Imm32 (r : Reg) (imm : Word)
  /-- `JMP rel32` (42_jmp_rel.md R87). -/
  | jmpRel32 (disp : Int)
  /-- `JMP rel8` (42_jmp_rel.md R86). -/
  | jmpRel8 (disp : Int)
  deriving DecidableEq, Repr

/-- The handlers a dispatch-table entry can name (40_fetch_decode_dispatch.md R69); an entry without one is
`none : Option Handler`. -/
inductive Handler where
  | movR32Imm32 | jmpRel32 | jmpRel8
  deriving DecidableEq, Repr

/-- Why the decoder rejects a list of bytes. -/
inductive DecodeReject where
  /-- No byte at all: there is no opcode to look at. Safe. -/
  | noOpcode
  /-- The opcode byte has no handler (30_encoding.md R60). Safe. -/
  | unimplementedOpcode (opcode : Byte)
  /-- The opcode has a handler and the list ends before its last operand byte. In memory this is an
  `OutOfBoundsAccess` of the operand fetch (20_memory.md R33), never a shorter instruction. Safe (log 13). -/
  | truncatedOperand (opcode : Byte)
  deriving DecidableEq, Repr

end Sys2Proof
end

