-- ==== Sys2Proof/WellFormed.lean ====
section
/-! DEFINITION. Which instruction terms stand for an instruction of the hardware. Every register and every immediate
is legal by its type (10_state.md R12, 30_encoding.md R55, R61); a displacement must lie in its range. -/

namespace Sys2Proof

/-- The range checks on displacements: `rel32` in -2^31 to 2^31 - 1 (30_encoding.md R57), `rel8` in -128 to 127
(R56). -/
def Instr.wf : Instr → Bool
  | .movR32Imm32 _ _ => true
  | .jmpRel32 d => decide (-2147483648 ≤ d) && decide (d ≤ 2147483647)
  | .jmpRel8 d => decide (-128 ≤ d) && decide (d ≤ 127)

end Sys2Proof
end

