-- ==== Sys2Proof/Decode.lean ====
section
/-! DEFINITION. From bytes to instructions and back: the dispatch table, the operand fields, the decoder and, after
it, the encoder written from the same encoding rules (30_encoding.md R50 to R59). -/

namespace Sys2Proof

/-! ### Byte order and signedness -/

/-- The unsigned little-endian value of a list of bytes, the first byte at the lowest address
(20_memory.md R33, R35). -/
def leNat : List Byte → Nat
  | [] => 0
  | b :: bs => b.toNat + 256 * leNat bs

/-- The `n` low bytes of a number, least significant first (20_memory.md R34: byte `i` is `v[8*i+7 : 8*i]`). -/
def leBytes : Nat → Nat → List Byte
  | 0, _ => []
  | n + 1, v => BitVec.ofNat 8 v :: leBytes n (v / 256)

/-- `signed_8(b)` (00_scope.md section 5, "Signedness"). -/
def signed8 (b : Byte) : Int :=
  if b.toNat < 128 then (b.toNat : Int) else (b.toNat : Int) - 256

/-- `signed_32(v)` (00_scope.md section 5, "Signedness"). -/
def signed32 (v : Word) : Int :=
  if v.toNat < 2147483648 then (v.toNat : Int) else (v.toNat : Int) - 4294967296

/-- `sext_32(b)` (00_scope.md section 5, "Signedness"; 40_fetch_decode_dispatch.md R73). -/
def sext32 (b : Byte) : Word :=
  if b.toNat < 0x80 then BitVec.ofNat 32 b.toNat else BitVec.ofNat 32 (b.toNat + 0xFFFFFF00)

/-! ### Registers by number -/

/-- The index of a register name: its place in the enumeration (10_state.md R11). -/
def Reg.index : Reg → Nat
  | .eax => 0 | .ecx => 1 | .edx => 2 | .ebx => 3 | .esp => 4 | .ebp => 5 | .esi => 6 | .edi => 7

/-- The register of an index 0 to 7 (10_state.md R11). -/
def Reg.ofIndex : Nat → Reg
  | 0 => .eax | 1 => .ecx | 2 => .edx | 3 => .ebx | 4 => .esp | 5 => .ebp | 6 => .esi | _ => .edi

/-- The register operand of format OI: bits 2 to 0 of the opcode byte (30_encoding.md R52, R58). -/
def regOfOpcode (opcode : Byte) : Reg := Reg.ofIndex (opcode.toNat % 8)

/-! ### The dispatch table -/

/-- `Dispatch` (40_fetch_decode_dispatch.md R69, 30_encoding.md R59): a total function of the opcode byte alone.
It is a constant of the design and not state (10_state.md R21, R70 of 40_fetch_decode_dispatch.md). -/
def dispatch (opcode : Byte) : Option Handler :=
  if 0xB8 ≤ opcode.toNat ∧ opcode.toNat ≤ 0xBF then some .movR32Imm32
  else if opcode.toNat = 0xE9 then some .jmpRel32
  else if opcode.toNat = 0xEB then some .jmpRel8
  else none

/-- How many operand bytes follow the opcode byte (30_encoding.md R52 to R54). -/
def Handler.operandBytes : Handler → Nat
  | .movR32Imm32 => 4
  | .jmpRel32 => 4
  | .jmpRel8 => 1

/-- The length of the instruction in bytes: a function of the opcode byte alone (30_encoding.md R51). -/
def Handler.length (h : Handler) : Nat := 1 + h.operandBytes

/-- The handler that executes an instruction. -/
def Instr.handler : Instr → Handler
  | .movR32Imm32 _ _ => .movR32Imm32
  | .jmpRel32 _ => .jmpRel32
  | .jmpRel8 _ => .jmpRel8

/-- The length of an instruction in bytes (30_encoding.md R51). -/
def Instr.length (i : Instr) : Nat := i.handler.length

/-! ### The decoder -/

/-- The instruction made of a handler, its opcode byte and its operand bytes read as one little-endian number: the
register from the opcode byte (30_encoding.md R58), the immediate unchanged (R55), the displacements signed
(R56, R57). -/
def Handler.instr (h : Handler) (opcode : Byte) (operand : Nat) : Instr :=
  match h with
  | .movR32Imm32 => .movR32Imm32 (regOfOpcode opcode) (BitVec.ofNat 32 operand)
  | .jmpRel32 => .jmpRel32 (signed32 (BitVec.ofNat 32 operand))
  | .jmpRel8 => .jmpRel8 (signed8 (BitVec.ofNat 8 operand))

/-- The decoder on the bytes at `eip` and up: the instruction and the bytes after it, or a named rejection. The
handler, the format and the length come from the first byte alone (30_encoding.md R50, R51, R62). -/
def decode : List Byte → Except DecodeReject (Instr × List Byte)
  | [] => .error .noOpcode
  | opcode :: rest =>
    match dispatch opcode with
    | none => .error (.unimplementedOpcode opcode)
    | some h =>
      if rest.length < h.operandBytes then .error (.truncatedOperand opcode)
      else .ok (h.instr opcode (leNat (rest.take h.operandBytes)), rest.drop h.operandBytes)

/-! ### The encoder -/

/-- The bytes of an instruction at ascending addresses (30_encoding.md R52 to R54, R63): the opcode byte, then the
operand, little-endian, a displacement in two's complement. -/
def encode : Instr → List Byte
  | .movR32Imm32 r imm => BitVec.ofNat 8 (0xB8 + r.index) :: leBytes 4 imm.toNat
  | .jmpRel32 d => 0xE9#8 :: leBytes 4 (BitVec.ofInt 32 d).toNat
  | .jmpRel8 d => 0xEB#8 :: leBytes 1 (BitVec.ofInt 8 d).toNat

/-! ### The host's numbering of an instruction's bits -/

/-- The bytes of an instruction given as one number of `nbits` bits, bit 0 the least significant bit of the opcode
byte (30_encoding.md R50), every bit above `nbits` zero, up to the longest instruction. -/
def tableWordBytes (nbits w : Nat) : List Byte := leBytes Config.maxInstrBytes (w % 2 ^ nbits)

/-- The instruction the decoder reads from a row's bits, in the numbering of spec/opcode_table.json. -/
def decodeTableWord (nbits w : Nat) : Option Instr :=
  match decode (tableWordBytes nbits w) with
  | .ok (i, _) => some i
  | .error _ => none

end Sys2Proof
end

