-- ==== Sys2Proof/Machine/State.lean ====
section
/-! DEFINITION. The architectural state, which is exactly the six items of 10_state.md R10, its value after reset,
and the reasons for which a step of the model can stop. -/

namespace Sys2Proof.Machine

/-- The eight general registers `x[0]` to `x[7]`, one field for each name, none hard-wired and none shared
(10_state.md R11, R12). -/
structure GeneralRegs where
  eax : Word
  ecx : Word
  edx : Word
  ebx : Word
  esp : Word
  ebp : Word
  esi : Word
  edi : Word
  deriving DecidableEq, Repr

/-- The states of the execution loop (10_state.md R19). Every one but `running` is terminal. -/
inductive RunState where
  | running
  /-- `eip` was exactly 0 after a handler ran: the normal end (40_fetch_decode_dispatch.md R79). -/
  | halted
  /-- The opcode fetched has no handler (R77). -/
  | unimplemented
  /-- An access at or beyond the end of memory (R75, 60_exceptions.md R92). -/
  | outOfBounds
  deriving DecidableEq, Repr

/-- The record a fault leaves (10_state.md R20). -/
inductive FaultRecord where
  /-- `UnimplementedOpcode{opcode, at}`: the byte fetched and the `eip` it was fetched at (60_exceptions.md R91). -/
  | unimplementedOpcode (opcode : Byte) (address : Word)
  /-- `OutOfBoundsAccess{offset}`: the address that failed the bounds check (60_exceptions.md R92). -/
  | outOfBoundsAccess (offset : Word)
  deriving DecidableEq, Repr

/-- Memory as the list of its bytes that differ from what an unlisted address reads as (10_state.md R23, R28): the
addresses rise strictly, none is at or above `MEM_SIZE`, and no byte listed is the unlisted value (`Memory.wf`, log 15). -/
abbrev Memory := List Host.Cell

/-- The architectural state (10_state.md R10): these six items and nothing else. -/
structure State where
  /-- `x[0..7]` -/
  regs : GeneralRegs
  /-- `flags`: an opaque 32-bit pattern, no bit of it named (10_state.md R17). -/
  flags : Word
  /-- `eip`: the offset of the next opcode byte (10_state.md R14). -/
  eip : Word
  /-- `mem[0..MEM_SIZE-1]` -/
  mem : Memory
  /-- `run_state` -/
  runState : RunState
  /-- `fault` -/
  fault : Option FaultRecord
  deriving DecidableEq, Repr

/-- `Reset(INIT_EIP, INIT_ESP)` (70_reset_and_hazards.md R110): every item of state at once. The values are those of
10_state.md R25 to R29; the zeros of the seven other registers and of `flags` are the spec's decisions D2 and D3
(log 3, log 4). -/
def State.resetAt (initEip initEsp : Word) : State where
  regs := { eax := 0, ecx := 0, edx := 0, ebx := 0, esp := initEsp, ebp := 0, esi := 0, edi := 0 }
  flags := 0
  eip := initEip
  mem := []
  runState := .running
  fault := none

/-- The machine right after reset, with the two launch parameters at the values Config names (log 1, log 2). No
program is loaded: the loader does that from outside (log 17). -/
def State.reset : State := State.resetAt Config.initEip Config.initEsp

/-- Why a step of the model stops with a fault. The faults of the core itself are not among them: they are next
states, with `runState` and `fault` written (60_exceptions.md R96, log 9). -/
inductive Fault where
  /-- Raised by `step` in a terminal state, where "no step is defined" and only reset goes on
  (40_fetch_decode_dispatch.md R84). Safe: the core does nothing there (log 10). -/
  | stopped (runState : RunState)
  deriving DecidableEq, Repr

/-- Why a step of the model refuses an instruction. -/
inductive Refusal where
  /-- Raised by `exec` for an instruction without a meaning. Safe. No arm of this model uses it. -/
  | notModelled (mnemonic : String)
  deriving DecidableEq, Repr

end Sys2Proof.Machine
end

