-- ==== Sys2Proof/Machine/Ops.lean ====
section
/-! DEFINITION. The named operations over memory, registers and `eip`, and taking a fault. Everything the core does to
its state goes through these. -/

namespace Sys2Proof.Machine

/-! ### Memory -/

/-- What an address that the memory does not list reads as: 0, the value of every byte after reset
(10_state.md R28). -/
def Memory.unlisted : Byte := 0

/-- The byte `mem[a]`, for an address that has passed its bounds check. -/
def Memory.byteAt : Memory → Nat → Byte
  | [], _ => Memory.unlisted
  | (k, b) :: m, a => if k = a then b else Memory.byteAt m a

/-- `mem[a] <- b`, keeping the canonical form: writing the unlisted value removes the entry. -/
def Memory.setByte : Memory → Nat → Byte → Memory
  | [], a, b => if b = Memory.unlisted then [] else [(a, b)]
  | (k, c) :: m, a, b =>
    if a < k then
      if b = Memory.unlisted then (k, c) :: m else (a, b) :: (k, c) :: m
    else if k = a then
      if b = Memory.unlisted then m else (k, b) :: m
    else (k, c) :: Memory.setByte m a b

/-- The canonical form: addresses strictly rising and below `MEM_SIZE`, no entry equal to the unlisted value. -/
def Memory.wf : Memory → Bool
  | [] => true
  | (k, b) :: m =>
    decide (k < Config.memSize) && decide (b ≠ Memory.unlisted) && m.all (fun c => decide (k < c.1)) && Memory.wf m

/-- The `n` bytes at ascending addresses from `a`. -/
def Memory.bytesAt (m : Memory) (a : Nat) : Nat → List Byte
  | 0 => []
  | n + 1 => m.byteAt a :: Memory.bytesAt m (a + 1) n

/-- Stores bytes at ascending addresses from `a`. -/
def Memory.setBytes (m : Memory) (a : Nat) : List Byte → Memory
  | [] => m
  | b :: bs => Memory.setBytes (m.setByte a b) (a + 1) bs

/-- The lowest of the `n` addresses from `a` that is at or above `MEM_SIZE`, checked in ascending order. Addresses
are unbounded integers, never reduced or clamped (20_memory.md R32, R33, the spec's decisions D5 and D23, log 7). -/
def firstOutOfBounds (a : Nat) : Nat → Option Nat
  | 0 => none
  | n + 1 => if Config.memSize ≤ a then some a else firstOutOfBounds (a + 1) n

/-- `MemRead(addr, n)` (20_memory.md R33): the unsigned little-endian value of `n` bytes, or the lowest address out of
bounds. All the checks precede the first use of a byte. -/
def memRead (m : Memory) (addr n : Nat) : Except Nat Nat :=
  match firstOutOfBounds addr n with
  | some offset => .error offset
  | none => .ok (leNat (m.bytesAt addr n))

/-- `MemWrite(addr, n, v)` (20_memory.md R34): the same checks, then byte `i` of `v` at `addr + i`. No instruction
calls it; the loader copies with it. -/
def memWrite (m : Memory) (addr n v : Nat) : Except Nat Memory :=
  match firstOutOfBounds addr n with
  | some offset => .error offset
  | none => .ok (m.setBytes addr (leBytes n v))

/-! ### General registers -/

/-- `x[r]`. -/
def State.reg (s : State) : Reg → Word
  | .eax => s.regs.eax
  | .ecx => s.regs.ecx
  | .edx => s.regs.edx
  | .ebx => s.regs.ebx
  | .esp => s.regs.esp
  | .ebp => s.regs.ebp
  | .esi => s.regs.esi
  | .edi => s.regs.edi

/-- `x[r] <- v`: all 32 bits of one register (10_state.md R12, R13). -/
def State.setReg (s : State) (r : Reg) (v : Word) : State :=
  match r with
  | .eax => { s with regs := { s.regs with eax := v } }
  | .ecx => { s with regs := { s.regs with ecx := v } }
  | .edx => { s with regs := { s.regs with edx := v } }
  | .ebx => { s with regs := { s.regs with ebx := v } }
  | .esp => { s with regs := { s.regs with esp := v } }
  | .ebp => { s with regs := { s.regs with ebp := v } }
  | .esi => { s with regs := { s.regs with esi := v } }
  | .edi => { s with regs := { s.regs with edi := v } }

/-! ### The instruction pointer and the 32-bit adder -/

/-- `a +_32 d` for an integer `d`: the sum modulo 2^32, no carry, no overflow (00_scope.md section 5,
40_fetch_decode_dispatch.md R72, the spec's decision D1, log 5). -/
def add32 (a : Word) (d : Int) : Word := BitVec.ofInt 32 ((a.toNat : Int) + d)

/-- `eip <- v` (10_state.md R15). -/
def State.setEip (s : State) (v : Word) : State := { s with eip := v }

/-! ### Taking a fault

There is no return from a fault and no nesting (60_exceptions.md R98): no operation stands beside this one. The only
way out of a terminal state is `State.resetAt`. -/

/-- The terminal state that belongs to a record (60_exceptions.md R90, R96). -/
def FaultRecord.runState : FaultRecord → RunState
  | .unimplementedOpcode _ _ => .unimplemented
  | .outOfBoundsAccess _ => .outOfBounds

/-- `raise` (60_exceptions.md R96, R97): `run_state` and `fault` are written and nothing else changes; the live `eip`
and registers are themselves the saved state. -/
def raise (r : FaultRecord) (s : State) : State :=
  { s with runState := r.runState, fault := some r }

/-- The record of an access to the integer address `offset`. It fits a `u32` wherever the core raises it
(10_state.md R20). -/
def outOfBoundsAt (offset : Nat) : FaultRecord := .outOfBoundsAccess (BitVec.ofNat 32 offset)

end Sys2Proof.Machine
end

