-- ==== Sys2Proof/Machine/Jmp.lean ====
section
/-! DEFINITION. The relative jumps (42_jmp_rel.md): unconditional, no link, no delay slot, the target unchecked
(R88, R89). -/

namespace Sys2Proof.Machine

/-- A jump relative to the following instruction: `eip <- eip +_32 d +_32 length` (42_jmp_rel.md R88). -/
def State.jumpRelative (s : State) (disp : Int) (length : Nat) : State :=
  s.setEip (add32 (add32 s.eip disp) length)

/-- `JMP rel32` after its displacement is fetched (42_jmp_rel.md R87). -/
def execJmpRel32 (disp : Int) (s : State) : Host.Outcome State Fault Refusal :=
  .next (s.jumpRelative disp 5)

/-- `JMP rel8` after its displacement is fetched (42_jmp_rel.md R86). -/
def execJmpRel8 (disp : Int) (s : State) : Host.Outcome State Fault Refusal :=
  .next (s.jumpRelative disp 2)

end Sys2Proof.Machine
end

