-- ==== Sys2Proof/Machine/Mov.lean ====
section
/-! DEFINITION. The register-immediate family (41_mov_r32_imm32.md). -/

namespace Sys2Proof.Machine

/-- `MOV r32, imm32` after its immediate is fetched (41_mov_r32_imm32.md R85): `x[r] <- imm32`, then
`eip <- eip +_32 5`. Nothing else is written. -/
def execMovR32Imm32 (r : Reg) (imm : Word) (s : State) : Host.Outcome State Fault Refusal :=
  .next ((s.setReg r imm).setEip (add32 s.eip 5))

end Sys2Proof.Machine
end

