-- ==== Sys2Proof/Machine/Dispatch.lean ====
section
/-! DEFINITION. The meaning of each instruction whose operands are fetched, one arm per constructor. The fetch before
it and the halt check after it are the step's (Machine/Fetch.lean, Machine/Step.lean, log 11). -/

namespace Sys2Proof.Machine

/-- The handler's effect (40_fetch_decode_dispatch.md R78). -/
def exec (i : Instr) (s : State) : Host.Outcome State Fault Refusal :=
  match i with
  | .movR32Imm32 r imm => Sys2Proof.Machine.execMovR32Imm32 r imm s
  | .jmpRel32 disp => Sys2Proof.Machine.execJmpRel32 disp s
  | .jmpRel8 disp => Sys2Proof.Machine.execJmpRel8 disp s

end Sys2Proof.Machine
end

