-- ==== Sys2Proof/Machine/Flags.lean ====
section
/-! DEFINITION. Flags and comparisons. The core computes no flag: "No handler reads or writes `flags`", and no bit of
it has a name (10_state.md R17, 40_fetch_decode_dispatch.md R74). What the core compares are the two conditions of the
execution loop; they are unsigned comparisons of `eip` with constants and leave `flags` alone (R74). -/

namespace Sys2Proof.Machine

/-- The flags word as the host's dump reads it, whole: its only reader (70_reset_and_hazards.md R116). -/
def State.flagsWord (s : State) : Word := s.flags

/-- `eip >= MEM_SIZE`, unsigned (40_fetch_decode_dispatch.md R75). -/
def State.eipOutOfBounds (s : State) : Bool := decide (Config.memSize ≤ s.eip.toNat)

/-- `eip = HALT_ADDR` (40_fetch_decode_dispatch.md R79). -/
def State.eipAtHalt (s : State) : Bool := decide (s.eip = Config.haltAddr)

end Sys2Proof.Machine
end

