-- ==== Sys2Proof/Machine/Operands.lean ====
section
/-! DEFINITION. The instruction fetch unit: the three fetch primitives and the operand forms. They read `eip` and
memory and write nothing (40_fetch_decode_dispatch.md R68). -/

namespace Sys2Proof.Machine

/-- `MemRead(eip + o, n)` with its failure as the record the core raises. The address is an unbounded sum, not
`+_32` (40_fetch_decode_dispatch.md R68, the spec's decision D23). -/
def fetchRaw (s : State) (o n : Nat) : Except FaultRecord Nat :=
  match memRead s.mem (s.eip.toNat + o) n with
  | .error offset => .error (outOfBoundsAt offset)
  | .ok v => .ok v

/-- `fetch_u8(o)` (40_fetch_decode_dispatch.md R65). -/
def fetchU8 (s : State) (o : Nat) : Except FaultRecord Byte :=
  (fetchRaw s o 1).map (BitVec.ofNat 8)

/-- `fetch_i8(o)`: the same byte as a two's-complement integer (40_fetch_decode_dispatch.md R66). -/
def fetchI8 (s : State) (o : Nat) : Except FaultRecord Int :=
  (fetchU8 s o).map signed8

/-- `fetch_u32_le(o)` (40_fetch_decode_dispatch.md R67). -/
def fetchU32le (s : State) (o : Nat) : Except FaultRecord Word :=
  (fetchRaw s o 4).map (BitVec.ofNat 32)

/-- The operand fetch at the head of each handler, which precedes the handler's first write: `imm32` and `rel32` with
`fetch_u32_le(1)`, `rel8` with `fetch_i8(1)`, the register from the opcode byte (41_mov_r32_imm32.md R85,
42_jmp_rel.md R86, R87). -/
def fetchOperands (s : State) (opcode : Byte) : Handler → Except FaultRecord Instr
  | .movR32Imm32 => (fetchU32le s 1).map (Instr.movR32Imm32 (regOfOpcode opcode))
  | .jmpRel32 => (fetchU32le s 1).map (fun v => Instr.jmpRel32 (signed32 v))
  | .jmpRel8 => (fetchI8 s 1).map Instr.jmpRel8

end Sys2Proof.Machine
end

