-- ==== Sys2Proof/Machine/Fetch.lean ====
section
/-! DEFINITION. The parts of a step around the handler: whether a step is defined, the fetch of the next instruction,
the halt check, and where the host's `withFetchWord` places an instruction. -/

namespace Sys2Proof.Machine

/-- A step is defined only in RUNNING; in a terminal state the model stops (40_fetch_decode_dispatch.md section 4,
R84, log 10). -/
def stepUndefined (s : State) : Option Fault :=
  match s.runState with
  | .running => none
  | .halted => some (.stopped .halted)
  | .unimplemented => some (.stopped .unimplemented)
  | .outOfBounds => some (.stopped .outOfBounds)

/-- The opcode byte after the bounds check of `eip` (40_fetch_decode_dispatch.md R75, R76). The check at the start of
the step is the spec's decision D4 (log 6). -/
def fetchOpcode (s : State) : Except FaultRecord Byte :=
  if s.eipOutOfBounds then .error (.outOfBoundsAccess s.eip) else fetchU8 s 0

/-- The next instruction, or the record the step raises, in the order of 60_exceptions.md R95: `eip` out of bounds
(R75), no handler (R77), an operand byte out of bounds (R78). -/
def fetchInstr (s : State) : Except FaultRecord Instr :=
  match fetchOpcode s with
  | .error r => .error r
  | .ok opcode =>
    match dispatch opcode with
    | none => .error (.unimplementedOpcode opcode s.eip)
    | some h => fetchOperands s opcode h

/-- The halt check after a handler (40_fetch_decode_dispatch.md R79). -/
def haltCheck (s : State) : State :=
  if s.eipAtHalt then { s with runState := .halted } else s

/-- The end of a step after a handler's outcome. -/
def afterHandler : Host.Outcome State Fault Refusal → Host.Outcome State Fault Refusal
  | .next t => .next (haltCheck t)
  | .fault f => .fault f
  | .refused r => .refused r

/-- Where the longest instruction fits: at `eip`, or at 0 when `eip` leaves no room for it below `MEM_SIZE`. -/
def placeAddress (s : State) : Word :=
  if s.eip.toNat + Config.maxInstrBytes ≤ Config.memSize then s.eip else 0

/-- Stores an instruction where the next step fetches it: at `eip`, in RUNNING with no fault recorded, which is what
the fetch needs (log 17). -/
def placeInstr (s : State) (bytes : List Byte) : State :=
  { s with
    eip := placeAddress s
    mem := s.mem.setBytes (placeAddress s).toNat bytes
    runState := .running
    fault := none }

end Sys2Proof.Machine
end

