-- ==== Sys2Proof/Machine/Step.lean ====
section
/-! DEFINITION. One step of the execution loop (40_fetch_decode_dispatch.md R75 to R79). -/

namespace Sys2Proof.Machine

/-- `Step()`: fetch and dispatch, then either the fault is taken or the handler runs and the halt check follows. The
loop itself never advances `eip` (10_state.md R15). -/
def step (s : State) : Host.Outcome State Fault Refusal :=
  match stepUndefined s with
  | some f => .fault f
  | none =>
    match fetchInstr s with
    | .error r => .next (raise r s)
    | .ok i => afterHandler (exec i s)

/-- `s` with the instruction of `nbits` bits `w` stored where the next step fetches it. -/
def State.withFetchWord (s : State) (nbits w : Nat) : State := placeInstr s (tableWordBytes nbits w)

end Sys2Proof.Machine
end

