-- ==== Sys2Proof/Machine/Assembly.lean ====
section
/-! DEFINITION. The assembler operand forms of 30_encoding.md R63 and the idioms of R64, as bytes. A label is the
absolute address it stands for. -/

namespace Sys2Proof.Machine

/-- One line of the spec's syntax (30_encoding.md R63). -/
inductive AsmLine where
  /-- `MOV <reg>, <value>` -/
  | mov (r : Reg) (value : Int)
  /-- `JMP SHORT <target>` -/
  | jmpShort (target : Word)
  /-- `JMP NEAR <target>` -/
  | jmpNear (target : Word)
  /-- `DB <byte>, ...` -/
  | db (bytes : List Byte)
  deriving DecidableEq, Repr

/-- `target - (address of this instruction + 2)`, which must be a `rel8` (30_encoding.md R63). -/
def shortDisp (addr target : Word) : Int := (target.toNat : Int) - ((addr.toNat : Int) + 2)

/-- `(target - (address of this instruction + 5)) mod 2^32`, read as signed (30_encoding.md R63, R57). -/
def nearDisp (addr target : Word) : Int :=
  signed32 (BitVec.ofInt 32 ((target.toNat : Int) - ((addr.toNat : Int) + 5)))

/-- The bytes of one line at an address; none where its operand is out of range (30_encoding.md R63). -/
def assembleLine (addr : Word) : AsmLine → Option (List Byte)
  | .mov r value =>
    if -2147483648 ≤ value ∧ value < 4294967296 then some (encode (.movR32Imm32 r (BitVec.ofInt 32 value))) else none
  | .jmpShort target =>
    if (Instr.jmpRel8 (shortDisp addr target)).wf then some (encode (.jmpRel8 (shortDisp addr target))) else none
  | .jmpNear target => some (encode (.jmpRel32 (nearDisp addr target)))
  | .db bytes => some bytes

/-- The image of a listing whose first byte stands at `org` (`ORG`, 30_encoding.md R63). -/
def assemble (org : Word) : List AsmLine → Option (List Byte)
  | [] => some []
  | line :: lines =>
    match assembleLine org line with
    | none => none
    | some bytes => (assemble (org + BitVec.ofNat 32 bytes.length) lines).map (bytes ++ ·)

/-- The exit idiom: a jump to address 0 (30_encoding.md R64). -/
def exitIdiom : AsmLine := .jmpNear Config.haltAddr

/-- The spin idiom: a short jump to its own address (30_encoding.md R64). -/
def spinIdiom (addr : Word) : AsmLine := .jmpShort addr

end Sys2Proof.Machine
end

