-- ==== Sys2Proof/Machine/HostPort.lean ====
section
/-! DEFINITION. The interface between the core and its host, at the level of the five transactions
(70_reset_and_hazards.md R110 to R117, R121): reset, load, step and run, status and dump, trace. None of it is state of
the core. -/

namespace Sys2Proof.Machine

/-! ### Load -/

/-- `LoaderOverflow`: the loader's error, before the run; the core is unchanged (60_exceptions.md R93). -/
inductive LoadError where
  | loaderOverflow
  deriving DecidableEq, Repr

/-- The number of bytes to copy, `min(length(IMAGE), LOAD_MAX)` (70_reset_and_hazards.md R111, log 18). -/
def loadCount (image : List Byte) (loadMax : Nat) : Nat := min image.length loadMax

/-- The loader's copy: `MemWrite(LOAD_BASE + i, 1, IMAGE[i])` in ascending order (70_reset_and_hazards.md R111). -/
def copyImage (m : Memory) (a : Nat) : List Byte → Except Nat Memory
  | [] => .ok m
  | b :: bs =>
    match memWrite m a 1 b.toNat with
    | .error offset => .error offset
    | .ok m' => copyImage m' (a + 1) bs

/-- `Load(LOAD_BASE, IMAGE, LOAD_MAX)` (70_reset_and_hazards.md R111): the whole range is checked before the first
byte is copied, so the copy never fails. When it may be called is the session's matter (`transact`). -/
def load (loadBase : Word) (image : List Byte) (loadMax : Nat) (s : State) : Except LoadError State :=
  if Config.memSize < loadBase.toNat + loadCount image loadMax then .error .loaderOverflow
  else
    match copyImage s.mem loadBase.toNat (image.take (loadCount image loadMax)) with
    | .error _ => .error .loaderOverflow
    | .ok m => .ok { s with mem := m }

/-! ### Run -/

/-- At most `n` steps, stopping where no step is defined: the host's `STEP_LIMIT` as fuel (70_reset_and_hazards.md
R121, 40_fetch_decode_dispatch.md R80, log 22). -/
def runFor : Nat → State → State
  | 0, s => s
  | n + 1, s =>
    match step s with
    | .next t => runFor n t
    | .fault _ => s
    | .refused _ => s

/-! ### Trace -/

/-- `Trace(eip, opcode)` (40_fetch_decode_dispatch.md R81). -/
structure TraceRecord where
  eip : Word
  opcode : Byte
  deriving DecidableEq, Repr

/-- The record the next step emits: after the opcode fetch and before the lookup, and only if `TRACE_ENABLE`. A step
that fetches no opcode emits none (40_fetch_decode_dispatch.md R81, log 21). -/
def traceOf (traceEnable : Bool) (s : State) : Option TraceRecord :=
  match traceEnable, stepUndefined s, fetchOpcode s with
  | true, none, .ok opcode => some { eip := s.eip, opcode := opcode }
  | _, _, _ => none

/-- The records of at most `n` steps, oldest first. -/
def traceFor (traceEnable : Bool) : Nat → State → List TraceRecord
  | 0, _ => []
  | n + 1, s =>
    match step s with
    | .next t => (traceOf traceEnable s).toList ++ traceFor traceEnable n t
    | .fault _ => []
    | .refused _ => []

/-! ### Status and dump -/

/-- The number of a run state on a status port (60_exceptions.md R94, log 23). -/
def RunState.code : RunState → Nat
  | .running => 0
  | .halted => 1
  | .unimplemented => 2
  | .outOfBounds => 3

/-- The number of a fault kind (60_exceptions.md R94, log 23). -/
def faultCode : Option FaultRecord → Nat
  | none => 0
  | some (.unimplementedOpcode _ _) => 1
  | some (.outOfBoundsAccess _) => 2

/-- The number of a loader result (60_exceptions.md R94, log 23). -/
def loadCode {α : Type} : Except LoadError α → Nat
  | .ok _ => 0
  | .error .loaderOverflow => 1

/-- What the host reads (70_reset_and_hazards.md R116): the structured result and the register file, `flags`
included (90_conflicts.md C8). -/
structure HostView where
  runState : RunState
  fault : Option FaultRecord
  regs : GeneralRegs
  flags : Word
  eip : Word
  deriving DecidableEq, Repr

/-- `Status` and `Dump`: a read of the state that changes nothing. -/
def hostView (s : State) : HostView :=
  { runState := s.runState, fault := s.fault, regs := s.regs, flags := s.flagsWord, eip := s.eip }

/-! ### The session

Where the launch protocol stands is the host's, so it is kept beside the core (70_reset_and_hazards.md R113, R114,
R117, log 20). -/

/-- How far the launch has come since the last `Reset`. -/
inductive Phase where
  /-- Reset, nothing loaded, no step taken. -/
  | afterReset
  /-- One load accepted, no step taken. -/
  | loaded
  /-- The load did not fit: no run may start (60_exceptions.md R93). -/
  | overflowed
  /-- The first step was asked for: the execution loop owns the state. -/
  | started
  deriving DecidableEq, Repr

/-- The host's session: no state exists before the first `Reset` (70_reset_and_hazards.md R117). -/
inductive Session where
  | noCore
  | live (phase : Phase) (core : State)
  deriving DecidableEq, Repr

/-- The transactions (70_reset_and_hazards.md R114). The trace is an output of `run`. -/
inductive Transaction where
  | reset (initEip initEsp : Word)
  | load (loadBase : Word) (image : List Byte) (loadMax : Nat)
  /-- Up to `stepLimit` steps; `run 1` is `Step`. -/
  | run (stepLimit : Nat)
  /-- `Status` and `Dump`. -/
  | view
  deriving DecidableEq, Repr

/-- What a transaction answers. -/
inductive Reply where
  | done
  | loadResult (overflow : Bool)
  | ran (trace : List TraceRecord)
  | view (v : HostView)
  deriving DecidableEq, Repr

/-- A duty of the host that it broke: the spec describes no such move, so the session refuses it and changes
nothing (70_reset_and_hazards.md R117). Safe. -/
inductive Violation where
  /-- A transaction other than `Reset` before the first `Reset`. -/
  | noReset
  /-- A `Load` after a load or after the first step (at most one per reset, R111). -/
  | loadNotAllowed
  /-- A run after `LoaderOverflow` (60_exceptions.md R93). -/
  | runAfterOverflow
  /-- A step asked of a terminal state (40_fetch_decode_dispatch.md R84). -/
  | coreStopped
  deriving DecidableEq, Repr

/-- The `Load` transaction of a live session. -/
def Session.load (phase : Phase) (core : State) (loadBase : Word) (image : List Byte) (loadMax : Nat) :
    Except Violation (Session × Reply) :=
  match phase with
  | .afterReset =>
    match Machine.load loadBase image loadMax core with
    | .ok core' => .ok (.live .loaded core', .loadResult false)
    | .error .loaderOverflow => .ok (.live .overflowed core, .loadResult true)
  | .loaded => .error .loadNotAllowed
  | .overflowed => .error .loadNotAllowed
  | .started => .error .loadNotAllowed

/-- The `Step` and `Run` transactions of a live session; asking for no step starts no run
(70_reset_and_hazards.md R112). -/
def Session.run (traceEnable : Bool) (phase : Phase) (core : State) (stepLimit : Nat) :
    Except Violation (Session × Reply) :=
  if phase = .overflowed then .error .runAfterOverflow
  else if core.runState ≠ .running then .error .coreStopped
  else
    .ok (.live (if stepLimit = 0 then phase else .started) (runFor stepLimit core),
      .ran (traceFor traceEnable stepLimit core))

/-- One transaction (70_reset_and_hazards.md R114): the next session and the reply, or the duty that forbids it.
`Reset` is allowed at any time and abandons any run. `view` is accepted in every phase of a live session: the spec
names reads between steps and at the end (R7, R116, R117), and that a loaded core before its first step and a core
after `LoaderOverflow` may be read too is the model's choice (DESIGN CHOICE, log 26). -/
def transact (traceEnable : Bool) : Session → Transaction → Except Violation (Session × Reply)
  | _, .reset initEip initEsp => .ok (.live .afterReset (State.resetAt initEip initEsp), .done)
  | .noCore, .load _ _ _ => .error .noReset
  | .noCore, .run _ => .error .noReset
  | .noCore, .view => .error .noReset
  | .live phase core, .load loadBase image loadMax => Session.load phase core loadBase image loadMax
  | .live phase core, .run stepLimit => Session.run traceEnable phase core stepLimit
  | .live phase core, .view => .ok (.live phase core, .view (hostView core))

end Sys2Proof.Machine
end

