-- ==== Sys2Proof/Safety.lean ====
section
/-! DEFINITION. What claims about runs are stated in: the invariant of the machine and how a run ends
(60_exceptions.md R100, 70_reset_and_hazards.md R115). -/

namespace Sys2Proof.Machine

/-- `run_state` and `fault` agree, and the record is the one the state itself shows (10_state.md R20, 60_exceptions.md
R91, R92): no record in RUNNING and HALTED, `eip` = 0 in HALTED, the byte at `eip` without a handler in UNIMPLEMENTED,
the offset at or above `MEM_SIZE` in OUT_OF_BOUNDS and either `eip` or `MEM_SIZE` itself. -/
def State.coherent (s : State) : Bool :=
  match s.runState, s.fault with
  | .running, none => true
  | .halted, none => decide (s.eip = Config.haltAddr)
  | .unimplemented, some (.unimplementedOpcode opcode address) =>
    decide (address = s.eip) && decide (s.eip.toNat < Config.memSize) &&
      decide (s.mem.byteAt s.eip.toNat = opcode) && decide (dispatch opcode = none)
  | .outOfBounds, some (.outOfBoundsAccess offset) =>
    (decide (offset = s.eip) && decide (Config.memSize ≤ s.eip.toNat)) ||
      (decide (offset.toNat = Config.memSize) && decide (s.eip.toNat < Config.memSize) &&
        decide (Config.memSize ≤ s.eip.toNat + 4))
  | _, _ => false

/-- The invariant of the machine: memory in its canonical form, and `run_state` and `fault` coherent. -/
def State.inv (s : State) : Bool := s.mem.wf && s.coherent

/-- The invariant of a session: the core's, wherever a core exists, and a core that no step has been asked of is
still in RUNNING. -/
def Session.inv : Session → Bool
  | .noCore => true
  | .live phase core => core.inv && (decide (phase = .started) || decide (core.runState = .running))

/-- The 32-bit number that the four bytes from `a` stand for, as the sum of 20_memory.md R33 and
40_fetch_decode_dispatch.md R67 writes it. Statements use it beside `fetchU32le`. -/
def Memory.wordAt (m : Memory) (a : Nat) : Word :=
  BitVec.ofNat 32 ((m.byteAt a).toNat + 2 ^ 8 * (m.byteAt (a + 1)).toNat + 2 ^ 16 * (m.byteAt (a + 2)).toNat +
    2 ^ 24 * (m.byteAt (a + 3)).toNat)

/-- A final state in the sense of 60_exceptions.md R100: HALTED and nothing else. -/
def State.isFinal (s : State) : Bool := decide (s.runState = .halted)

/-- A faulted state, never final (60_exceptions.md R100). -/
def State.isFaulted (s : State) : Bool := decide (s.runState = .unimplemented) || decide (s.runState = .outOfBounds)

/-- The run from `s` ends in `t` (70_reset_and_hazards.md R115): the core's unbounded run, whatever the host's
ceiling. -/
def State.endsIn (s t : State) : Prop := ∃ n, runFor n s = t ∧ t.runState ≠ .running

/-- The run from `s` never leaves RUNNING (60_exceptions.md R100, 70_reset_and_hazards.md R121). -/
def State.hangs (s : State) : Prop := ∀ n, (runFor n s).runState = .running

/-- A safe run: it ends, and in a final state. -/
def State.safeRun (s : State) : Prop := ∃ t, s.endsIn t ∧ t.isFinal = true

end Sys2Proof.Machine
end

