-- ==== Sys2Proof/Certificates/Slice0/Obligations.lean ====
section
/-! DEFINITION. The statements for the provers, one proposition each. A docstring names the rule of spec/ a statement
formalises; where a clause rests on a decision the spec marks as its own, or on a choice of the model, it says so. -/

open Sys2Proof Sys2Proof.Machine

/-! ### Encoding -/

/-- Words written out from 30_encoding.md R52 to R54 and from the spec's own examples (95_test_vectors.md S-1, S-2,
S-3, M-2, N-1, N-10) decode to the instructions they stand for. -/
def Obligations.SpecWordsDecodeToTheirInstructions : Prop :=
  decode [0xB8, 0x78, 0x56, 0x34, 0x12] = .ok (.movR32Imm32 .eax 0x12345678, []) ∧
  decode [0xBF, 0xFF, 0xFF, 0xFF, 0xFF, 0x90] = .ok (.movR32Imm32 .edi 0xFFFFFFFF, [0x90]) ∧
  decode [0xE9, 0xEA, 0x83, 0xFF, 0xFF] = .ok (.jmpRel32 (-0x7C16), []) ∧
  decode [0xE9, 0x00, 0x00, 0x00, 0x80] = .ok (.jmpRel32 (-2147483648), []) ∧
  decode [0xEB, 0xFE] = .ok (.jmpRel8 (-2), []) ∧
  decode [0xEB, 0x7F] = .ok (.jmpRel8 127, []) ∧
  decode [0x0F] = .error (.unimplementedOpcode 0x0F)

/-- 40_fetch_decode_dispatch.md R69: the dispatch table as a function of the opcode byte, and the number of entries
without a handler. -/
def Obligations.DispatchTableInstallsTenHandlers : Prop :=
  (∀ b : Byte, dispatch b =
    if b.extractLsb' 3 5 = 0b10111#5 then some .movR32Imm32
    else if b = 0xE9#8 then some .jmpRel32
    else if b = 0xEB#8 then some .jmpRel8
    else none) ∧
  ((List.range Config.nOpcode).filter fun n => dispatch (BitVec.ofNat 8 n) = none).length = 246 ∧
  ((List.range Config.nOpcode).filter fun n => dispatch (BitVec.ofNat 8 n) ≠ none).length = Config.nHandled

/-- 10_state.md R11: the numbering of the eight registers, which is the register field of the MOV opcode byte. -/
def Obligations.RegisterNumberIsTheMovOpcodeField : Prop :=
  [Reg.eax, .ecx, .edx, .ebx, .esp, .ebp, .esi, .edi].map Reg.index = [0, 1, 2, 3, 4, 5, 6, 7] ∧
  (∀ r : Reg, dispatch (0xB8#8 + BitVec.ofNat 8 r.index) = some .movR32Imm32 ∧
    regOfOpcode (0xB8#8 + BitVec.ofNat 8 r.index) = r) ∧
  (∀ (s : State) (r q : Reg) (v : Word), (s.setReg r v).reg q = if q = r then v else s.reg q)

/-- Decoding an encoded well-formed instruction gives it back, with the bytes after it untouched
(30_encoding.md R50 to R58). -/
def Obligations.DecodeOfEncodeIsTheInstruction : Prop :=
  ∀ (i : Instr) (rest : List Byte), i.wf = true → decode (encode i ++ rest) = .ok (i, rest)

/-- What the decoder accepts is well formed and is what the encoder writes: each accepted word has one meaning
(30_encoding.md R50 to R62). -/
def Obligations.EncodeOfDecodeIsTheBytes : Prop :=
  ∀ (bytes rest : List Byte) (i : Instr), decode bytes = .ok (i, rest) → i.wf = true ∧ encode i ++ rest = bytes

/-- The decoder's rejections, by name (30_encoding.md section 4, log 13): no byte, an opcode without a handler, an operand
cut short. -/
def Obligations.DecoderRejectsExactlyByName : Prop :=
  decode [] = .error .noOpcode ∧
  ∀ (b : Byte) (rest : List Byte),
    (decode (b :: rest) = .error (.unimplementedOpcode b) ↔ dispatch b = none) ∧
    (decode (b :: rest) = .error (.truncatedOperand b) ↔ ∃ h, dispatch b = some h ∧ rest.length < h.operandBytes) ∧
    ((∃ i rest', decode (b :: rest) = .ok (i, rest')) ↔ ∃ h, dispatch b = some h ∧ h.operandBytes ≤ rest.length)

/-- 30_encoding.md R62: whatever else the state holds, the opcode byte alone says which instruction it is and how
long, or that there is none. -/
def Obligations.OpcodeByteAloneSelectsTheInstruction : Prop :=
  ∀ s : State, s.eip.toNat < Config.memSize →
    (dispatch (s.mem.byteAt s.eip.toNat) = none ∧
      fetchInstr s = .error (.unimplementedOpcode (s.mem.byteAt s.eip.toNat) s.eip)) ∨
    ∃ h, dispatch (s.mem.byteAt s.eip.toNat) = some h ∧
      (∀ i, fetchInstr s = .ok i →
        i.handler = h ∧ (encode i).head? = some (s.mem.byteAt s.eip.toNat) ∧
          (encode i).length = if h = .jmpRel8 then 2 else 5) ∧
      (s.eip.toNat + h.length ≤ Config.memSize → ∃ i, fetchInstr s = .ok i)

/-! ### The step and the instructions -/

/-- When the bytes at `eip` decode to an instruction, the step is that instruction's meaning and then the halt check;
nothing is added to `eip` (40_fetch_decode_dispatch.md sections 2 and 4). -/
def Obligations.StepRunsTheDecodedInstruction : Prop :=
  ∀ (s : State) (n : Nat) (i : Instr) (rest : List Byte),
    s.runState = .running → s.eip.toNat + n ≤ Config.memSize →
    decode (s.mem.bytesAt s.eip.toNat n) = .ok (i, rest) →
    ∃ t, exec i s = .next t ∧ step s = .next (if t.eip = 0 then { t with runState := .halted } else t)

/-- What the meaning of MOV writes and its frame, on every state and operands (41_mov_r32_imm32.md, Pseudocode and
State written). -/
def Obligations.MovWritesOneRegisterAndAdvances : Prop :=
  ∀ (r : Reg) (imm : Word) (s : State), ∃ t, exec (.movR32Imm32 r imm) s = .next t ∧
    t.reg r = imm ∧ (∀ q, q ≠ r → t.reg q = s.reg q) ∧ t.eip = s.eip + 5 ∧
    t.flags = s.flags ∧ t.runState = s.runState ∧ t.fault = s.fault ∧
    ∀ a, t.mem.byteAt a = s.mem.byteAt a

/-- What the meanings of the two jumps write and their frame, on every state and displacement: `eip` alone, by the
integer sum modulo 2^32 (42_jmp_rel.md, Pseudocode and State written; wrapping is the spec's decision D1). -/
def Obligations.JumpsWriteOnlyTheInstructionPointer : Prop :=
  ∀ (d : Int) (s : State) (i : Instr) (length : Int),
    (i = .jmpRel32 d ∧ length = 5) ∨ (i = .jmpRel8 d ∧ length = 2) →
    ∃ t, exec i s = .next t ∧
      (t.eip.toNat : Int) = ((s.eip.toNat : Int) + d + length) % 4294967296 ∧
      (∀ q, t.reg q = s.reg q) ∧ t.flags = s.flags ∧ t.runState = s.runState ∧ t.fault = s.fault ∧
      ∀ a, t.mem.byteAt a = s.mem.byteAt a

/-- 41_mov_r32_imm32.md R85 as one step, whole: the register and `eip` where the immediate is in bounds, the fault
and nothing else where it is not, and the next step's fault after a MOV that ends at the last byte of memory. -/
def Obligations.StepOfMovLoadsTheImmediate : Prop :=
  ∀ s : State, s.runState = .running → s.eip.toNat < Config.memSize →
    0xB8 ≤ (s.mem.byteAt s.eip.toNat).toNat → (s.mem.byteAt s.eip.toNat).toNat ≤ 0xBF →
    (s.eip.toNat + 4 < Config.memSize →
      ∃ t, step s = .next t ∧
        t.reg (Reg.ofIndex ((s.mem.byteAt s.eip.toNat).toNat - 0xB8)) = s.mem.wordAt (s.eip.toNat + 1) ∧
        (∀ q, q ≠ Reg.ofIndex ((s.mem.byteAt s.eip.toNat).toNat - 0xB8) → t.reg q = s.reg q) ∧
        t.eip.toNat = s.eip.toNat + 5 ∧ t.flags = s.flags ∧ t.mem = s.mem ∧
        t.runState = .running ∧ t.fault = s.fault ∧
        (s.eip.toNat + 5 = Config.memSize →
          step t = .next { t with
            runState := .outOfBounds, fault := some (.outOfBoundsAccess (BitVec.ofNat 32 Config.memSize)) })) ∧
    (Config.memSize ≤ s.eip.toNat + 4 →
      step s = .next { s with
        runState := .outOfBounds, fault := some (.outOfBoundsAccess (BitVec.ofNat 32 Config.memSize)) })

/-- 42_jmp_rel.md R86 as one step, whole: the target in both spellings of the rule, the halt check, the next step's
fault on a target outside memory, and the fault and nothing else where the displacement byte is out of bounds. -/
def Obligations.StepOfShortJumpGoesToItsTarget : Prop :=
  ∀ s : State, s.runState = .running → s.eip.toNat < Config.memSize →
    s.mem.byteAt s.eip.toNat = 0xEB →
    (s.eip.toNat + 1 < Config.memSize →
      ∃ t, step s = .next t ∧
        t.eip = s.eip + sext32 (s.mem.byteAt (s.eip.toNat + 1)) + 2 ∧
        (t.eip.toNat : Int) =
          ((s.eip.toNat : Int) + (s.mem.byteAt (s.eip.toNat + 1)).toInt + 2) % 4294967296 ∧
        (∀ q, t.reg q = s.reg q) ∧ t.flags = s.flags ∧ t.mem = s.mem ∧ t.fault = s.fault ∧
        (t.eip = 0 → t.runState = .halted) ∧ (t.eip ≠ 0 → t.runState = .running) ∧
        (Config.memSize ≤ t.eip.toNat →
          step t = .next { t with runState := .outOfBounds, fault := some (.outOfBoundsAccess t.eip) })) ∧
    (Config.memSize ≤ s.eip.toNat + 1 →
      step s = .next { s with
        runState := .outOfBounds, fault := some (.outOfBoundsAccess (BitVec.ofNat 32 Config.memSize)) })

/-- 42_jmp_rel.md R87 as one step, whole: the signed and the unsigned reading of `rel32` give the same `eip`, the halt
check, the next step's fault on a target outside memory, the fault and nothing else where a displacement byte is out of
bounds, and every valid address is the target of some displacement. -/
def Obligations.StepOfNearJumpGoesToItsTarget : Prop :=
  ∀ s : State, s.runState = .running → s.eip.toNat < Config.memSize →
    s.mem.byteAt s.eip.toNat = 0xE9 →
    (s.eip.toNat + 4 < Config.memSize →
      ∃ t, step s = .next t ∧
        t.eip = s.eip + s.mem.wordAt (s.eip.toNat + 1) + 5 ∧
        (t.eip.toNat : Int) =
          ((s.eip.toNat : Int) + (s.mem.wordAt (s.eip.toNat + 1)).toInt + 5) % 4294967296 ∧
        (∀ q, t.reg q = s.reg q) ∧ t.flags = s.flags ∧ t.mem = s.mem ∧ t.fault = s.fault ∧
        (t.eip = 0 → t.runState = .halted) ∧ (t.eip ≠ 0 → t.runState = .running) ∧
        (Config.memSize ≤ t.eip.toNat →
          step t = .next { t with runState := .outOfBounds, fault := some (.outOfBoundsAccess t.eip) }) ∧
        (∀ target : Word, target.toNat < Config.memSize →
          s.mem.wordAt (s.eip.toNat + 1) = target - s.eip - 5 → t.eip = target)) ∧
    (Config.memSize ≤ s.eip.toNat + 4 →
      step s = .next { s with
        runState := .outOfBounds, fault := some (.outOfBoundsAccess (BitVec.ofNat 32 Config.memSize)) })

/-- 40_fetch_decode_dispatch.md R73: the sign extension of `rel8`, that the adder may take either the extension or
the signed integer, and that `rel32` and `imm32` enter unchanged. -/
def Obligations.ShortDisplacementEntersSignExtended : Prop :=
  (∀ b : Byte, (b.toNat < 0x80 → (sext32 b).toNat = b.toNat) ∧
    (0x80 ≤ b.toNat → (sext32 b).toNat = b.toNat + 0xFFFFFF00)) ∧
  (∀ (a : Word) (b : Byte), add32 a (sext32 b).toNat = add32 a (signed8 b)) ∧
  (∀ (s : State) (b : Byte), ∃ t, exec (.jmpRel8 (signed8 b)) s = .next t ∧ t.eip = s.eip + sext32 b + 2) ∧
  (∀ (s : State) (v : Word), ∃ t, exec (.jmpRel32 (signed32 v)) s = .next t ∧ t.eip = s.eip + v + 5) ∧
  (∀ (s : State) (r : Reg) (v : Word), ∃ t, exec (.movR32Imm32 r v) s = .next t ∧ t.reg r = v)

/-- The value a jump from a valid address writes (40_fetch_decode_dispatch.md section 5, derived there from the
spec's decision D1): the mathematical target where it is not negative, else that target plus 2^32, which is far above
memory; and 0 exactly when the mathematical target is 0. -/
def Obligations.NegativeJumpTargetsWrapFarAboveMemory : Prop :=
  ∀ (s : State) (d : Int) (i : Instr) (length low : Int), s.eip.toNat < Config.memSize → i.wf = true →
    (i = .jmpRel32 d ∧ length = 5 ∧ low = 2147483648 + 5) ∨ (i = .jmpRel8 d ∧ length = 2 ∧ low = 4294967296 - 126) →
    ∃ t, exec i s = .next t ∧
      (0 ≤ (s.eip.toNat : Int) + d + length → (t.eip.toNat : Int) = (s.eip.toNat : Int) + d + length) ∧
      ((s.eip.toNat : Int) + d + length < 0 →
        (t.eip.toNat : Int) = (s.eip.toNat : Int) + d + length + 4294967296 ∧ low ≤ (t.eip.toNat : Int)) ∧
      (t.eip = 0 ↔ (s.eip.toNat : Int) + d + length = 0)

/-- The assembler's jump forms and the two idioms (30_encoding.md section 6, its syntax the spec's decision D20): a
near or short jump assembled at `eip` for a target goes there, halts if the target is 0, and a spin at an address other
than 0 is a fixed point of the step. -/
def Obligations.AssembledJumpsReachTheirTargets : Prop :=
  ∀ (s : State) (target : Word) (line : AsmLine) (n : Nat), s.runState = .running →
    s.eip.toNat + n ≤ Config.memSize →
    (line = .jmpNear target ∧ n = 5) ∨ (line = .jmpShort target ∧ n = 2) →
    assembleLine s.eip line = some (s.mem.bytesAt s.eip.toNat n) →
    step s = .next { s with
      eip := target, runState := if target = 0 then RunState.halted else RunState.running }

/-! ### Halting and faults -/

/-- 40_fetch_decode_dispatch.md R79: after a handler, `eip` = 0 halts whichever handler produced it, any other value
goes on; HALTED comes from a jump only, with no fault recorded; and a reset at 0 is in RUNNING, so that the instruction
there executes. -/
def Obligations.HaltCheckFollowsEveryHandler : Prop :=
  (∀ (s u : State) (i : Instr), s.runState = .running → fetchInstr s = .ok i → exec i s = .next u →
    (u.eip = 0 → step s = .next { u with runState := .halted }) ∧ (u.eip ≠ 0 → step s = .next u)) ∧
  (∀ s t : State, s.inv = true → step s = .next t → t.runState = .halted →
    t.eip = 0 ∧ t.fault = none ∧
      (s.mem.byteAt s.eip.toNat = 0xE9 ∨ s.mem.byteAt s.eip.toNat = 0xEB)) ∧
  (∀ p : Word, (State.resetAt 0 p).runState = .running)

/-- 40_fetch_decode_dispatch.md R77 and 60_exceptions.md R91: an opcode byte without a handler ends the run in
UNIMPLEMENTED with its record, changes nothing else, whatever the following bytes; and UNIMPLEMENTED has no other
cause. -/
def Obligations.UnimplementedOpcodeStopsTheRun : Prop :=
  ∀ s : State, s.runState = .running →
    (s.eip.toNat < Config.memSize → dispatch (s.mem.byteAt s.eip.toNat) = none →
      step s = .next { s with
        runState := .unimplemented
        fault := some (.unimplementedOpcode (s.mem.byteAt s.eip.toNat) s.eip) }) ∧
    (∀ t, step s = .next t → t.runState = .unimplemented →
      s.eip.toNat < Config.memSize ∧ dispatch (s.mem.byteAt s.eip.toNat) = none)

/-- `eip` at or above `MEM_SIZE` at the start of a step (40_fetch_decode_dispatch.md section 4, "Bounds check of the
instruction pointer"): the fault with offset `eip`, and nothing else. That it is raised here, and not by the jump
before, is the spec's decision D4 (log 6). -/
def Obligations.InstructionPointerBeyondMemoryFaults : Prop :=
  ∀ s : State, s.runState = .running → Config.memSize ≤ s.eip.toNat →
    step s = .next { s with runState := .outOfBounds, fault := some (.outOfBoundsAccess s.eip) }

/-- 60_exceptions.md R95: the four conditions of a step in their order; each but the last ends it, and the last runs
the handler and makes the halt check. -/
def Obligations.StepTestsItsConditionsInOrder : Prop :=
  ∀ s : State, s.runState = .running →
    (Config.memSize ≤ s.eip.toNat →
      step s = .next { s with runState := .outOfBounds, fault := some (.outOfBoundsAccess s.eip) }) ∧
    (s.eip.toNat < Config.memSize → dispatch (s.mem.byteAt s.eip.toNat) = none →
      step s = .next { s with
        runState := .unimplemented
        fault := some (.unimplementedOpcode (s.mem.byteAt s.eip.toNat) s.eip) }) ∧
    (∀ h, s.eip.toNat < Config.memSize → dispatch (s.mem.byteAt s.eip.toNat) = some h →
      (Config.memSize < s.eip.toNat + h.length →
        step s = .next { s with
          runState := .outOfBounds, fault := some (.outOfBoundsAccess (BitVec.ofNat 32 Config.memSize)) }) ∧
      (s.eip.toNat + h.length ≤ Config.memSize →
        ∃ i u, decode (s.mem.bytesAt s.eip.toNat h.length) = .ok (i, []) ∧ i.handler = h ∧ exec i s = .next u ∧
          u.runState = .running ∧
          step s = .next { u with
            runState := if u.eip = 0 then RunState.halted else RunState.running }))

/-- 60_exceptions.md R92: the two places where `OutOfBoundsAccess` arises, the instructions of the second, and the
offset recorded at each. -/
def Obligations.OutOfBoundsArisesInTwoPlacesOnly : Prop :=
  ∀ s : State, s.runState = .running → ∃ t, step s = .next t ∧
    (t.runState = .outOfBounds ↔
      Config.memSize ≤ s.eip.toNat ∨
      (s.eip.toNat < Config.memSize ∧
        ((0xB8 ≤ (s.mem.byteAt s.eip.toNat).toNat ∧ (s.mem.byteAt s.eip.toNat).toNat ≤ 0xBF ∧
            Config.memSize - 4 ≤ s.eip.toNat) ∨
          (s.mem.byteAt s.eip.toNat = 0xE9 ∧ Config.memSize - 4 ≤ s.eip.toNat) ∨
          (s.mem.byteAt s.eip.toNat = 0xEB ∧ s.eip.toNat = Config.memSize - 1)))) ∧
    (t.runState = .outOfBounds → Config.memSize ≤ s.eip.toNat → t.fault = some (.outOfBoundsAccess s.eip)) ∧
    (t.runState = .outOfBounds → s.eip.toNat < Config.memSize →
      t.fault = some (.outOfBoundsAccess (BitVec.ofNat 32 Config.memSize)))

/-- 60_exceptions.md R96: what raising each of the two faults writes, that nothing else changes, and that the run is
over: no number of steps asked for changes the state it leaves. -/
def Obligations.RaisingAFaultWritesRunStateAndRecordOnly : Prop :=
  ∀ (s : State) (opcode : Byte) (address offset : Word),
    raise (.unimplementedOpcode opcode address) s =
      { s with runState := .unimplemented, fault := some (.unimplementedOpcode opcode address) } ∧
    raise (.outOfBoundsAccess offset) s =
      { s with runState := .outOfBounds, fault := some (.outOfBoundsAccess offset) } ∧
    ∀ (r : FaultRecord) (n : Nat), runFor n (raise r s) = raise r s

/-- Faults are precise (60_exceptions.md section 3, the spec's decision D6, log 8): a step that ends in a fault leaves
every register, `flags`, `eip` and memory as they were, and records the fault. -/
def Obligations.FaultsArePrecise : Prop :=
  ∀ s t : State, step s = .next t → t.isFaulted = true →
    (∀ q, t.reg q = s.reg q) ∧ t.flags = s.flags ∧ t.eip = s.eip ∧
      (∀ a, t.mem.byteAt a = s.mem.byteAt a) ∧ t.fault ≠ none

/-- A state steps exactly when it is in RUNNING, and a terminal state keeps everything however many steps are asked
for (40_fetch_decode_dispatch.md sections 4 and 5, the spec's decision D19; that the model's step answers a fault of
its own there is log 10). -/
def Obligations.TerminalStatesAreAbsorbing : Prop :=
  ∀ s : State,
    ((∃ t, step s = .next t) ↔ s.runState = .running) ∧
    (s.runState ≠ .running → step s = .fault (.stopped s.runState) ∧ ∀ n, runFor n s = s)

/-! ### Reset and the invariant -/

/-- 10_state.md R25: any two launch values are accepted and stand in `eip` and ESP, unchecked; an `INIT_EIP` at or
above `MEM_SIZE` faults at the first step. -/
def Obligations.ResetTakesTheHostsLaunchValues : Prop :=
  ∀ initEip initEsp : Word,
    (State.resetAt initEip initEsp).eip = initEip ∧ (State.resetAt initEip initEsp).reg .esp = initEsp ∧
    (State.resetAt initEip initEsp).runState = .running ∧
    (Config.memSize ≤ initEip.toNat → ∃ t, step (State.resetAt initEip initEsp) = .next t ∧
      t.runState = .outOfBounds ∧ t.fault = some (.outOfBoundsAccess initEip))

/-- What else reset leaves (10_state.md section 9): zero memory, RUNNING, no fault; the zeros of the seven registers
and of `flags` are the spec's decisions D2 and D3 (log 3, log 4). `State.reset` is that state with the launch values the
model chose (DESIGN CHOICE, log 1, log 2). -/
def Obligations.ResetZeroesRegistersAndMemory : Prop :=
  (∀ initEip initEsp : Word,
    (∀ r, r ≠ .esp → (State.resetAt initEip initEsp).reg r = 0) ∧ (State.resetAt initEip initEsp).flags = 0 ∧
    (∀ a, a < Config.memSize → (State.resetAt initEip initEsp).mem.byteAt a = 0) ∧
    (State.resetAt initEip initEsp).runState = .running ∧ (State.resetAt initEip initEsp).fault = none) ∧
  State.reset = State.resetAt 0 0

/-- The invariant holds after every reset (10_state.md section 9). -/
def Obligations.ResetMeetsTheInvariant : Prop :=
  (∀ initEip initEsp : Word, (State.resetAt initEip initEsp).inv = true) ∧ core.reset.inv = true

/-- Every step keeps the invariant, from every state that meets it, reached or not: memory stays in its canonical form
and `run_state`, `fault`, `eip` and memory stay coherent (10_state.md sections 5 and 7, 60_exceptions.md section 1). -/
def Obligations.EveryStepKeepsTheInvariant : Prop :=
  ∀ s t : State, s.inv = true → step s = .next t → t.inv = true

/-- 10_state.md R17: `flags` is opaque. Any pattern put in it travels unchanged through any run and changes nothing
else of it, so no handler reads or writes it. -/
def Obligations.FlagsAreOpaqueThroughAnyRun : Prop :=
  ∀ (n : Nat) (s : State) (f : Word), runFor n { s with flags := f } = { runFor n s with flags := f } ∧
    (runFor n s).flags = s.flags

/-- Memory is constant during a run (20_memory.md section 7, derived there): through any number of steps the memory is
the same data and every byte reads as before. -/
def Obligations.MemoryIsConstantDuringARun : Prop :=
  ∀ (n : Nat) (s : State), (runFor n s).mem = s.mem ∧ ∀ a, (runFor n s).mem.byteAt a = s.mem.byteAt a

/-- No instruction reads a general register (10_state.md section 2, 40_fetch_decode_dispatch.md section 5): the course of
a run is a function of `eip`, memory and `run_state`; two runs that differ in the registers, `flags` and the old fault
record take the same path, write the same registers with the same values and record the same new fault. -/
def Obligations.GeneralRegistersNeverSteerARun : Prop :=
  ∀ (n : Nat) (s t : State), s.eip = t.eip → s.mem = t.mem → s.runState = t.runState →
    (runFor n s).eip = (runFor n t).eip ∧ (runFor n s).runState = (runFor n t).runState ∧
    (s.fault = t.fault → (runFor n s).fault = (runFor n t).fault) ∧
    (∀ r, (runFor n s).reg r = (runFor n t).reg r ∨
      ((runFor n s).reg r = s.reg r ∧ (runFor n t).reg r = t.reg r))

/-- A step reads only the bytes of its own instruction (20_memory.md section 4): the opcode byte alone where it has no
handler, no byte at all where `eip` is beyond memory. Two memories that agree there give the same step. -/
def Obligations.StepReadsOnlyItsOwnInstruction : Prop :=
  ∀ (s t : State) (m : Memory), step s = .next t →
    (∀ a, s.eip.toNat < Config.memSize → s.eip.toNat ≤ a →
      a < s.eip.toNat + ((dispatch (s.mem.byteAt s.eip.toNat)).map Handler.length).getD 1 →
      m.byteAt a = s.mem.byteAt a) →
    step { s with mem := m } = .next { t with mem := m }

/-- The instruction at address 0 runs only as the first of a run (20_memory.md section 5): after any step that stays in
RUNNING, and so after any number of steps but none, `eip` is not 0. -/
def Obligations.RunningNeverResumesAtAddressZero : Prop :=
  ∀ (n : Nat) (s : State), (runFor (n + 1) s).runState = .running → (runFor (n + 1) s).eip ≠ 0

/-- How a run ends (70_reset_and_hazards.md section 3, 60_exceptions.md section 4): in one state only, which is final or
faulted and never both; and a run that does not end is a hang, which no ceiling of the host turns into an end. -/
def Obligations.ARunEndsInOneStateOrHangs : Prop :=
  (∀ s t u : State, s.endsIn t → s.endsIn u → t = u) ∧
  (∀ s t : State, s.endsIn t → ((t.isFinal = true ↔ t.isFaulted = false) ∧ ¬ s.hangs)) ∧
  (∀ s : State, s.hangs ∨ ∃ t, s.endsIn t)

/-! ### Memory and the fetch unit -/

/-- 20_memory.md R34: `MemWrite` stores the bytes of its value in little-endian order after the bounds checks, changes no
other byte, keeps the canonical form, and no instruction calls it. -/
def Obligations.MemWriteStoresLittleEndianBytes : Prop :=
  (∀ (m : Memory) (addr n v : Nat), m.wf = true →
    (addr + n ≤ Config.memSize →
      ∃ m', memWrite m addr n v = .ok m' ∧ m'.wf = true ∧
        (∀ i, i < n → (m'.byteAt (addr + i)).toNat = v / 2 ^ (8 * i) % 256) ∧
        (∀ a, a < addr ∨ addr + n ≤ a → m'.byteAt a = m.byteAt a)) ∧
    (0 < n → Config.memSize < addr + n → memWrite m addr n v = .error (max addr Config.memSize))) ∧
  (∀ (i : Instr) (s t : State), exec i s = .next t → t.mem = s.mem)

/-- `MemRead` (20_memory.md section 1): the little-endian value of one or four bytes, or the lowest address out of
bounds. That the lowest is reported is the spec's decision D5 (log 7). -/
def Obligations.MemReadAssemblesLittleEndianOrFaults : Prop :=
  ∀ (m : Memory) (addr : Nat),
    (addr + 1 ≤ Config.memSize → memRead m addr 1 = .ok (m.byteAt addr).toNat) ∧
    (addr + 4 ≤ Config.memSize → ∃ v, memRead m addr 4 = .ok v ∧ v < 2 ^ 32 ∧ v = (m.wordAt addr).toNat ∧
      ∀ i, i < 4 → v / 2 ^ (8 * i) % 256 = (m.byteAt (addr + i)).toNat) ∧
    (∀ n, (n = 1 ∨ n = 4) → Config.memSize < addr + n →
      ∃ k, memRead m addr n = .error k ∧ addr ≤ k ∧ k < addr + n ∧ Config.memSize ≤ k ∧
        ∀ j, addr ≤ j → j < k → j < Config.memSize)

/-- 40_fetch_decode_dispatch.md R65, R66 and R67: the three fetch primitives at `eip + o`, in bounds and out of
them, and where each is used. The faults are stated where `eip + o` is below 2^32: the record holds a `u32`
(10_state.md R20), and no fetch of the core forms a larger address (R68). -/
def Obligations.FetchPrimitivesReadAtTheInstructionPointer : Prop :=
  (∀ (s : State) (opcode : Byte),
    (s.eip.toNat < Config.memSize → fetchOpcode s = fetchU8 s 0) ∧
    (∀ d, fetchOperands s opcode .jmpRel8 = .ok (.jmpRel8 d) ↔ fetchI8 s 1 = .ok d) ∧
    (∀ v, fetchOperands s opcode .movR32Imm32 = .ok (.movR32Imm32 (regOfOpcode opcode) v) ↔ fetchU32le s 1 = .ok v) ∧
    (∀ v, fetchOperands s opcode .jmpRel32 = .ok (.jmpRel32 (signed32 v)) ↔ fetchU32le s 1 = .ok v) ∧
    (∀ r, (fetchOperands s opcode .jmpRel8 = .error r ↔ fetchI8 s 1 = .error r) ∧
      (fetchOperands s opcode .movR32Imm32 = .error r ↔ fetchU32le s 1 = .error r) ∧
      (fetchOperands s opcode .jmpRel32 = .error r ↔ fetchU32le s 1 = .error r))) ∧
  ∀ (s : State) (o : Nat),
    (s.eip.toNat + o < Config.memSize →
      fetchU8 s o = .ok (s.mem.byteAt (s.eip.toNat + o)) ∧
      fetchI8 s o = .ok (s.mem.byteAt (s.eip.toNat + o)).toInt) ∧
    (Config.memSize ≤ s.eip.toNat + o → s.eip.toNat + o < 2 ^ 32 →
      fetchU8 s o = .error (.outOfBoundsAccess (BitVec.ofNat 32 (s.eip.toNat + o))) ∧
      fetchI8 s o = .error (.outOfBoundsAccess (BitVec.ofNat 32 (s.eip.toNat + o)))) ∧
    (s.eip.toNat + o + 3 < Config.memSize →
      fetchU32le s o = .ok (s.mem.wordAt (s.eip.toNat + o)) ∧
      ∀ i, i < 4 →
        (s.mem.wordAt (s.eip.toNat + o)).extractLsb' (8 * i) 8 = s.mem.byteAt (s.eip.toNat + o + i)) ∧
    (Config.memSize ≤ s.eip.toNat + o + 3 → s.eip.toNat + o < 2 ^ 32 →
      fetchU32le s o = .error (.outOfBoundsAccess (BitVec.ofNat 32 (max (s.eip.toNat + o) Config.memSize))))

/-! ### The host's side -/

/-- `Load` (70_reset_and_hazards.md section 2): where the image fits, its first `min(length, LOAD_MAX)` bytes stand from
`LOAD_BASE` up and nothing else changes; where it does not, `LoaderOverflow` and no state. That a long image is cut and
an overflow copies nothing are the spec's decisions D12 (log 18). -/
def Obligations.LoadCopiesTheImageOrOverflows : Prop :=
  ∀ (loadBase : Word) (image : List Byte) (loadMax : Nat) (s : State), s.mem.wf = true →
    (loadBase.toNat + min image.length loadMax ≤ Config.memSize →
      ∃ t, load loadBase image loadMax s = .ok t ∧ t.mem.wf = true ∧
        (∀ i (_ : i < image.length), i < loadMax → t.mem.byteAt (loadBase.toNat + i) = image[i]) ∧
        (∀ a, a < loadBase.toNat ∨ loadBase.toNat + min image.length loadMax ≤ a →
          t.mem.byteAt a = s.mem.byteAt a) ∧
        (∀ r, t.reg r = s.reg r) ∧ t.flags = s.flags ∧ t.eip = s.eip ∧ t.runState = s.runState ∧
        t.fault = s.fault) ∧
    (Config.memSize < loadBase.toNat + min image.length loadMax →
      load loadBase image loadMax s = .error .loaderOverflow)

/-- Whatever the launch values and the image, a run that starts from a load that succeeded meets the invariant after
any number of steps, with the image still in memory (70_reset_and_hazards.md sections 1 to 3). -/
def Obligations.LaunchedRunsMeetTheInvariantForever : Prop :=
  ∀ (initEip initEsp loadBase : Word) (image : List Byte) (loadMax : Nat) (s : State),
    load loadBase image loadMax (State.resetAt initEip initEsp) = .ok s →
    ∀ n, (runFor n s).inv = true ∧
      ∀ i (_ : i < image.length), i < loadMax → (runFor n s).mem.byteAt (loadBase.toNat + i) = image[i]

/-- Every transaction of the host keeps the session's invariant (70_reset_and_hazards.md section 3; that the interface
is a session of transactions is the spec's decision D8, log 20). -/
def Obligations.EveryTransactionKeepsTheSessionInvariant : Prop :=
  ∀ (traceEnable : Bool) (a b : Session) (x : Transaction) (reply : Reply), a.inv = true →
    transact traceEnable a x = .ok (b, reply) → b.inv = true

/-- The host's duties (70_reset_and_hazards.md section 3, the spec's decisions D8 and D18, log 20): nothing before
the first reset but a reset, at most one load and none after a step, no run after `LoaderOverflow`, no step of a
terminal state; a reset is always accepted and a view changes nothing. That a view is accepted in every phase is the model's choice
(DESIGN CHOICE, log 26). -/
def Obligations.HostDutiesAreEnforced : Prop :=
  (∀ (en : Bool) (x : Transaction), (∃ r, transact en .noCore x = .ok r) ↔ ∃ e p, x = .reset e p) ∧
  (∀ (en : Bool) (phase : Phase) (core : State) (base : Word) (image : List Byte) (loadMax : Nat),
    (∃ r, transact en (.live phase core) (.load base image loadMax) = .ok r) ↔ phase = .afterReset) ∧
  (∀ (en : Bool) (phase : Phase) (core : State) (base : Word) (image : List Byte) (loadMax : Nat) (b : Session)
    (r : Reply), transact en (.live phase core) (.load base image loadMax) = .ok (b, r) →
    (∃ t, load base image loadMax core = .ok t ∧ b = .live .loaded t ∧ r = .loadResult false) ∨
      (load base image loadMax core = .error .loaderOverflow ∧ b = .live .overflowed core ∧ r = .loadResult true)) ∧
  (∀ (en : Bool) (phase : Phase) (core : State) (n : Nat),
    (∃ r, transact en (.live phase core) (.run n) = .ok r) ↔ phase ≠ .overflowed ∧ core.runState = .running) ∧
  (∀ (en : Bool) (phase : Phase) (core : State) (n : Nat), phase ≠ .overflowed → core.runState = .running →
    transact en (.live phase core) (.run (n + 1)) =
      .ok (.live .started (runFor (n + 1) core), .ran (traceFor en (n + 1) core))) ∧
  (∀ (en : Bool) (a : Session) (e p : Word),
    transact en a (.reset e p) = .ok (.live .afterReset (State.resetAt e p), .done)) ∧
  (∀ (en : Bool) (phase : Phase) (core : State),
    transact en (.live phase core) .view = .ok (.live phase core, .view (hostView core)))

/-- The trace (40_fetch_decode_dispatch.md section 5; its point of emission is the spec's decision D9, log 21): one record
of `eip` and the opcode for each step that fetched one, an unimplemented one too, and none for any other. -/
def Obligations.TraceRecordsEachOpcodeFetched : Prop :=
  ∀ s : State,
    (s.runState = .running → s.eip.toNat < Config.memSize →
      traceOf true s = some { eip := s.eip, opcode := s.mem.byteAt s.eip.toNat }) ∧
    (Config.memSize ≤ s.eip.toNat → traceOf true s = none) ∧
    (s.runState ≠ .running → traceOf true s = none) ∧ traceOf false s = none

/-- The numbers of the run states, fault kinds and loader results (60_exceptions.md section 1, the spec's decision D7,
log 23). -/
def Obligations.StatusCodesAreTheSpecs : Prop :=
  [RunState.running, .halted, .unimplemented, .outOfBounds].map RunState.code = [0, 1, 2, 3] ∧
  (∀ (b : Byte) (a o : Word), faultCode none = 0 ∧ faultCode (some (.unimplementedOpcode b a)) = 1 ∧
    faultCode (some (.outOfBoundsAccess o)) = 2) ∧
  (∀ s : State, loadCode (.ok s : Except LoadError State) = 0) ∧
  loadCode (.error .loaderOverflow : Except LoadError State) = 1

/-- An instruction placed by `withFetchWord` is the one the next step runs, from every state with canonical memory
(the model's way to place a program, DESIGN CHOICE, log 17). -/
def Obligations.PlacedInstructionIsRunNext : Prop :=
  ∀ (s : State) (nbits w : Nat) (i : Instr), s.mem.wf = true → decodeTableWord nbits w = some i →
    ∃ u, exec i (s.withFetchWord nbits w) = .next u ∧
      step (s.withFetchWord nbits w) = .next (if u.eip = 0 then { u with runState := .halted } else u) ∧
      (∀ r, (s.withFetchWord nbits w).reg r = s.reg r) ∧ (s.withFetchWord nbits w).flags = s.flags
end

