-- ==== Sys2Proof/Laws/Decode.lean ====
section
/-! SUPPORT. Byte order, signed reading, the register numbering and the dispatch table: one lemma for what each
function can answer. -/

namespace Sys2Proof

@[simp] theorem length_leBytes (n v : Nat) : (leBytes n v).length = n := by
  induction n generalizing v with
  | zero => rfl
  | succ n ih => simp [leBytes, ih]

theorem leNat_lt (bs : List Byte) : leNat bs < 256 ^ bs.length := by
  induction bs with
  | nil => simp [leNat]
  | cons b bs ih =>
    have hb := b.isLt
    simp only [leNat, List.length_cons, Nat.pow_succ]
    omega

/-- Reading back the bytes written gives the number modulo its width. -/
theorem leNat_leBytes (n v : Nat) : leNat (leBytes n v) = v % 256 ^ n := by
  induction n generalizing v with
  | zero => simp [leBytes, leNat, Nat.mod_one]
  | succ n ih =>
    rw [leBytes, leNat, ih, BitVec.toNat_ofNat, Nat.pow_succ 256, Nat.mul_comm (256 ^ n) 256, Nat.mod_mul]

/-- Writing the number read gives the bytes back. -/
theorem leBytes_leNat (bs : List Byte) : leBytes bs.length (leNat bs) = bs := by
  induction bs with
  | nil => rfl
  | cons b bs ih =>
    have hb := b.isLt
    simp only [leNat, List.length_cons, leBytes]
    rw [show (b.toNat + 256 * leNat bs) / 256 = leNat bs by omega, ih]
    congr 1
    apply BitVec.eq_of_toNat_eq
    simp only [BitVec.toNat_ofNat]
    omega

theorem signed8_eq_toInt (b : Byte) : signed8 b = b.toInt := by
  have hb := b.isLt
  rw [signed8, BitVec.toInt_eq_toNat_cond]
  split <;> split <;> omega

theorem signed32_eq_toInt (v : Word) : signed32 v = v.toInt := by
  have hv := v.isLt
  rw [signed32, BitVec.toInt_eq_toNat_cond]
  split <;> split <;> omega

theorem signed8_range (b : Byte) : -128 ≤ signed8 b ∧ signed8 b ≤ 127 := by
  have hb := b.isLt
  unfold signed8
  split <;> omega

theorem signed32_range (v : Word) : -2147483648 ≤ signed32 v ∧ signed32 v ≤ 2147483647 := by
  have hv := v.isLt
  unfold signed32
  split <;> omega

/-- Two's complement and back, on the range of `rel8`. -/
theorem signed8_ofInt {d : Int} (h₁ : -128 ≤ d) (h₂ : d ≤ 127) : signed8 (BitVec.ofInt 8 d) = d := by
  rw [signed8_eq_toInt, BitVec.toInt_ofInt, Int.bmod_eq_of_le (by omega) (by omega)]

/-- Two's complement and back, on the range of `rel32`. -/
theorem signed32_ofInt {d : Int} (h₁ : -2147483648 ≤ d) (h₂ : d ≤ 2147483647) :
    signed32 (BitVec.ofInt 32 d) = d := by
  rw [signed32_eq_toInt, BitVec.toInt_ofInt, Int.bmod_eq_of_le (by omega) (by omega)]

theorem ofInt_signed8 (b : Byte) : BitVec.ofInt 8 (signed8 b) = b := by
  rw [signed8_eq_toInt, BitVec.ofInt_toInt]

theorem ofInt_signed32 (v : Word) : BitVec.ofInt 32 (signed32 v) = v := by
  rw [signed32_eq_toInt, BitVec.ofInt_toInt]

theorem sext32_eq_signExtend (b : Byte) : sext32 b = b.signExtend 32 := by
  have h : ∀ b : Byte, sext32 b = b.signExtend 32 := by decide
  exact h b

/-! ### Registers -/

@[simp] theorem Reg.ofIndex_index (r : Reg) : Reg.ofIndex r.index = r := by cases r <;> rfl

theorem Reg.index_lt (r : Reg) : r.index < 8 := by cases r <;> decide

theorem regOfOpcode_ofIndex (r : Reg) : regOfOpcode (BitVec.ofNat 8 (0xB8 + r.index)) = r := by
  cases r <;> rfl

/-! ### The dispatch table -/

/-- Which opcode bytes have which handler. -/
theorem dispatch_eq_some {b : Byte} {h : Handler} :
    dispatch b = some h ↔
      (h = .movR32Imm32 ∧ 0xB8 ≤ b.toNat ∧ b.toNat ≤ 0xBF) ∨ (h = .jmpRel32 ∧ b = 0xE9#8) ∨
        (h = .jmpRel8 ∧ b = 0xEB#8) := by
  have key : ∀ b : Byte, ∀ h ∈ [Handler.movR32Imm32, .jmpRel32, .jmpRel8], (dispatch b = some h ↔
      (h = .movR32Imm32 ∧ 0xB8 ≤ b.toNat ∧ b.toNat ≤ 0xBF) ∨ (h = .jmpRel32 ∧ b = 0xE9#8) ∨
        (h = .jmpRel8 ∧ b = 0xEB#8)) := by decide
  exact key b h (by cases h <;> simp)

theorem dispatch_movOpcode (r : Reg) : dispatch (BitVec.ofNat 8 (0xB8 + r.index)) = some .movR32Imm32 := by
  cases r <;> rfl

/-- The opcode byte of a MOV is that of its register field. -/
theorem movOpcode_of_dispatch {b : Byte} (h : dispatch b = some .movR32Imm32) :
    BitVec.ofNat 8 (0xB8 + (regOfOpcode b).index) = b := by
  have key : ∀ b : Byte, dispatch b = some .movR32Imm32 →
      BitVec.ofNat 8 (0xB8 + (regOfOpcode b).index) = b := by decide
  exact key b h

/-! ### The decoder -/

theorem decode_unimplemented {b : Byte} {rest : List Byte} (h : dispatch b = none) :
    decode (b :: rest) = .error (.unimplementedOpcode b) := by
  simp [decode, h]

theorem decode_truncated {b : Byte} {rest : List Byte} {h : Handler} (hd : dispatch b = some h)
    (hl : rest.length < h.operandBytes) : decode (b :: rest) = .error (.truncatedOperand b) := by
  simp [decode, hd, hl]

theorem decode_ok {b : Byte} {rest : List Byte} {h : Handler} (hd : dispatch b = some h)
    (hl : h.operandBytes ≤ rest.length) :
    decode (b :: rest) =
      .ok (h.instr b (leNat (rest.take h.operandBytes)), rest.drop h.operandBytes) := by
  simp [decode, hd, Nat.not_lt.mpr hl]

/-- Everything the decoder can accept. -/
theorem decode_eq_ok {bytes rest : List Byte} {i : Instr} (h : decode bytes = .ok (i, rest)) :
    ∃ b tail hd, bytes = b :: tail ∧ dispatch b = some hd ∧ hd.operandBytes ≤ tail.length ∧
      i = hd.instr b (leNat (tail.take hd.operandBytes)) ∧ rest = tail.drop hd.operandBytes := by
  cases bytes with
  | nil => simp [decode] at h
  | cons b tail =>
    cases hd : dispatch b with
    | none => simp [decode, hd] at h
    | some hh =>
      by_cases hl : tail.length < hh.operandBytes
      · simp [decode, hd, hl] at h
      · simp only [decode, hd, hl, if_false, Except.ok.injEq, Prod.mk.injEq] at h
        exact ⟨b, tail, hh, rfl, hd, by omega, h.1.symm, h.2.symm⟩

theorem Handler.instr_wf (h : Handler) (b : Byte) (v : Nat) : (h.instr b v).wf = true := by
  cases h with
  | movR32Imm32 => rfl
  | jmpRel32 => simpa [Handler.instr, Instr.wf] using signed32_range _
  | jmpRel8 => simpa [Handler.instr, Instr.wf] using signed8_range _

@[simp] theorem Handler.handler_instr (h : Handler) (b : Byte) (v : Nat) : (h.instr b v).handler = h := by
  cases h <;> rfl

end Sys2Proof
end

