-- ==== Sys2Proof/Laws/Memory.lean ====
section
/-! SUPPORT. Memory: read after write, the canonical form and its uniqueness, and the two primitives with their bounds
checks. -/

namespace Sys2Proof.Machine

theorem firstOutOfBounds_eq_none {a n : Nat} : firstOutOfBounds a n = none ↔ n = 0 ∨ a + n ≤ Config.memSize := by
  induction n generalizing a with
  | zero => simp [firstOutOfBounds]
  | succ n ih =>
    unfold firstOutOfBounds
    split
    · simp; omega
    · rw [ih]; simp [Config.memSize] at *; omega

/-- The reported address is the lowest of the range that is out of bounds. -/
theorem firstOutOfBounds_eq_some {a n k : Nat} :
    firstOutOfBounds a n = some k ↔ Config.memSize < a + n ∧ 0 < n ∧ k = max a Config.memSize := by
  induction n generalizing a with
  | zero => simp [firstOutOfBounds]
  | succ n ih =>
    unfold firstOutOfBounds
    split
    · simp [Config.memSize] at *; omega
    · rw [ih]; simp [Config.memSize] at *; omega

@[simp] theorem Memory.byteAt_nil (a : Nat) : Memory.byteAt [] a = Memory.unlisted := rfl

@[simp] theorem Memory.length_bytesAt (m : Memory) (a n : Nat) : (m.bytesAt a n).length = n := by
  induction n generalizing a with
  | zero => rfl
  | succ n ih => simp [Memory.bytesAt, ih]

/-- A byte of a range read is the byte at its address. -/
theorem Memory.getElem_bytesAt (m : Memory) (a n i : Nat) (h : i < (m.bytesAt a n).length) :
    (m.bytesAt a n)[i] = m.byteAt (a + i) := by
  induction n generalizing a i with
  | zero => simp [Memory.bytesAt] at h
  | succ n ih =>
    cases i with
    | zero => simp [Memory.bytesAt]
    | succ i => simp only [Memory.bytesAt, List.getElem_cons_succ, ih]; congr 1; omega

/-- What the canonical form says of a non-empty list. -/
theorem Memory.wf_cons {k : Nat} {b : Byte} {m : Memory} :
    Memory.wf ((k, b) :: m) = true ↔
      k < Config.memSize ∧ b ≠ Memory.unlisted ∧ (∀ c ∈ m, k < c.1) ∧ m.wf = true := by
  simp [Memory.wf, and_assoc]

/-- An address below every listed one reads as unlisted. -/
theorem Memory.byteAt_below {m : Memory} {a : Nat} (h : ∀ c ∈ m, a < c.1) : m.byteAt a = Memory.unlisted := by
  induction m with
  | nil => rfl
  | cons c m ih =>
    obtain ⟨k, b⟩ := c
    have hk : a < k := h (k, b) (by simp)
    simp only [Memory.byteAt, if_neg (show k ≠ a by omega)]
    exact ih fun c hc => h c (by simp [hc])

/-- Read after write, for a memory in canonical form. -/
theorem Memory.byteAt_setByte {m : Memory} (hm : m.wf = true) (a a' : Nat) (b : Byte) :
    (m.setByte a b).byteAt a' = if a' = a then b else m.byteAt a' := by
  induction m with
  | nil =>
    unfold Memory.setByte
    by_cases ha : a' = a
    · by_cases hb : b = Memory.unlisted <;> simp [hb, ha, Memory.byteAt]
    · by_cases hb : b = Memory.unlisted <;> simp [hb, ha, Ne.symm ha, Memory.byteAt]
  | cons c m ih =>
    obtain ⟨k, c⟩ := c
    obtain ⟨hk, hc, hlt, hwf⟩ := Memory.wf_cons.mp hm
    specialize ih hwf
    unfold Memory.setByte
    by_cases h1 : a < k
    · rw [if_pos h1]
      have hlow : Memory.byteAt ((k, c) :: m) a = Memory.unlisted :=
        Memory.byteAt_below (by
          intro x hx
          rcases List.mem_cons.mp hx with rfl | hx
          · exact h1
          · have := hlt x hx; omega)
      by_cases hb : b = Memory.unlisted
      · rw [if_pos hb]
        by_cases ha : a' = a
        · rw [if_pos ha, ha, hlow, hb]
        · rw [if_neg ha]
      · rw [if_neg hb]
        by_cases ha : a' = a
        · simp [Memory.byteAt, ha]
        · simp [Memory.byteAt, ha, Ne.symm ha]
    · rw [if_neg h1]
      by_cases h2 : k = a
      · subst h2
        have hlow : Memory.byteAt m k = Memory.unlisted := Memory.byteAt_below hlt
        by_cases hb : b = Memory.unlisted
        · by_cases ha : a' = k
          · simp [hb, ha, hlow]
          · simp [hb, ha, Memory.byteAt, Ne.symm ha]
        · by_cases ha : a' = k
          · simp [hb, ha, Memory.byteAt]
          · simp [hb, ha, Memory.byteAt, Ne.symm ha]
      · simp only [if_neg h2, Memory.byteAt, ih]
        by_cases ha : a' = a
        · simp [ha, h2]
        · simp [ha]

theorem Memory.forall_setByte {m : Memory} {a : Nat} {b : Byte} {P : Nat → Prop}
    (ha : P a) (hm : ∀ c ∈ m, P c.1) : ∀ c ∈ m.setByte a b, P c.1 := by
  induction m with
  | nil =>
    unfold Memory.setByte
    split <;> simp [ha]
  | cons c m ih =>
    obtain ⟨k, c⟩ := c
    have hk : P k := hm (k, c) (by simp)
    have ht : ∀ c ∈ m, P c.1 := fun c hc => hm c (by simp [hc])
    have := ih ht
    unfold Memory.setByte
    split
    · split
      · exact hm
      · intro x hx
        rcases List.mem_cons.mp hx with rfl | hx
        · exact ha
        · exact hm x hx
    · split
      · split
        · exact ht
        · intro x hx
          rcases List.mem_cons.mp hx with rfl | hx
          · exact hk
          · exact ht x hx
      · intro x hx
        rcases List.mem_cons.mp hx with rfl | hx
        · exact hk
        · exact this x hx

/-- A write at a valid address keeps the canonical form. -/
theorem Memory.wf_setByte {m : Memory} (hm : m.wf = true) {a : Nat} (ha : a < Config.memSize) (b : Byte) :
    (m.setByte a b).wf = true := by
  induction m with
  | nil =>
    unfold Memory.setByte
    split
    · rfl
    · next hb => exact Memory.wf_cons.mpr ⟨ha, hb, by simp, rfl⟩
  | cons c m ih =>
    obtain ⟨k, c⟩ := c
    obtain ⟨hk, hc, hlt, hwf⟩ := Memory.wf_cons.mp hm
    unfold Memory.setByte
    split
    · next h1 =>
      split
      · exact hm
      · next hb =>
        refine Memory.wf_cons.mpr ⟨ha, hb, ?_, hm⟩
        intro x hx
        rcases List.mem_cons.mp hx with rfl | hx
        · exact h1
        · have := hlt x hx; omega
    · next h1 =>
      split
      · split
        · exact hwf
        · next hb => exact Memory.wf_cons.mpr ⟨hk, hb, hlt, hwf⟩
      · next h2 =>
        exact Memory.wf_cons.mpr ⟨hk, hc, Memory.forall_setByte (P := fun x => k < x) (by omega) hlt, ih hwf⟩

/-- Writing a range of valid addresses keeps the canonical form. -/
theorem Memory.wf_setBytes {m : Memory} (hm : m.wf = true) {a : Nat} {bs : List Byte}
    (h : bs = [] ∨ a + bs.length ≤ Config.memSize) : (m.setBytes a bs).wf = true := by
  induction bs generalizing m a with
  | nil => exact hm
  | cons b bs ih =>
    simp only [List.length_cons, reduceCtorEq, false_or] at h
    exact ih (Memory.wf_setByte hm (by omega) b) (.inr (by omega))

/-- Read after a write of a range of valid addresses. -/
theorem Memory.byteAt_setBytes {m : Memory} (hm : m.wf = true) {a : Nat} {bs : List Byte}
    (h : bs = [] ∨ a + bs.length ≤ Config.memSize) (a' : Nat) :
    (m.setBytes a bs).byteAt a' = if a ≤ a' then (bs[a' - a]?).getD (m.byteAt a') else m.byteAt a' := by
  induction bs generalizing m a with
  | nil => simp [Memory.setBytes]
  | cons b bs ih =>
    simp only [List.length_cons, reduceCtorEq, false_or] at h
    rw [Memory.setBytes, ih (Memory.wf_setByte hm (by omega) b) (.inr (by omega)), Memory.byteAt_setByte hm]
    by_cases h1 : a' = a
    · simp [h1]
    · by_cases h2 : a ≤ a'
      · obtain ⟨k, hk⟩ : ∃ k, a' - a = k + 1 := ⟨a' - a - 1, by omega⟩
        simp [h1, h2, show a + 1 ≤ a' by omega, hk, show a' - (a + 1) = k by omega]
      · simp [h1, h2, show ¬ a + 1 ≤ a' by omega]

/-- Two canonical memories that read alike are the same data. -/
theorem Memory.ext_of_wf {m m' : Memory} (hm : m.wf = true) (hm' : m'.wf = true)
    (h : ∀ a, m.byteAt a = m'.byteAt a) : m = m' := by
  induction m generalizing m' with
  | nil =>
    cases m' with
    | nil => rfl
    | cons c m' =>
      obtain ⟨k, b⟩ := c
      have := h k
      simp only [Memory.byteAt, if_true] at this
      exact absurd this.symm (Memory.wf_cons.mp hm').2.1
  | cons c m ih =>
    obtain ⟨k, b⟩ := c
    obtain ⟨-, hb, hlt, hwf⟩ := Memory.wf_cons.mp hm
    cases m' with
    | nil =>
      have := h k
      simp only [Memory.byteAt, if_true] at this
      exact absurd this hb
    | cons c' m' =>
      obtain ⟨k', b'⟩ := c'
      obtain ⟨-, hb', hlt', hwf'⟩ := Memory.wf_cons.mp hm'
      have hkk : k = k' := by
        rcases Nat.lt_trichotomy k k' with hlt1 | heq | hlt1
        · have h1 := h k
          rw [Memory.byteAt_below (m := (k', b') :: m') (by
            intro x hx
            rcases List.mem_cons.mp hx with rfl | hx
            · exact hlt1
            · have := hlt' x hx; omega)] at h1
          simp only [Memory.byteAt, if_true] at h1
          exact absurd h1 hb
        · exact heq
        · have h1 := h k'
          rw [Memory.byteAt_below (m := (k, b) :: m) (by
            intro x hx
            rcases List.mem_cons.mp hx with rfl | hx
            · exact hlt1
            · have := hlt x hx; omega)] at h1
          simp only [Memory.byteAt, if_true] at h1
          exact absurd h1.symm hb'
      subst hkk
      have hbb : b = b' := by
        have := h k
        simpa only [Memory.byteAt, if_true] using this
      subst hbb
      have : m = m' := ih hwf hwf' fun a => by
        by_cases ha : k = a
        · subst ha
          rw [Memory.byteAt_below hlt, Memory.byteAt_below hlt']
        · have := h a
          simpa only [Memory.byteAt, if_neg ha] using this
      rw [this]

/-- An address at or above `MEM_SIZE` is never listed. -/
theorem Memory.byteAt_beyond {m : Memory} (hm : m.wf = true) {a : Nat} (ha : Config.memSize ≤ a) :
    m.byteAt a = Memory.unlisted := by
  induction m with
  | nil => rfl
  | cons c m ih =>
    obtain ⟨k, b⟩ := c
    obtain ⟨hk, -, -, hwf⟩ := Memory.wf_cons.mp hm
    simp only [Memory.byteAt, if_neg (show k ≠ a by omega)]
    exact ih hwf

/-! ### The primitives -/

theorem memRead_eq_ok {m : Memory} {a n : Nat} (h : a + n ≤ Config.memSize) :
    memRead m a n = .ok (leNat (m.bytesAt a n)) := by
  simp [memRead, firstOutOfBounds_eq_none.mpr (.inr h)]

theorem memRead_eq_error {m : Memory} {a n : Nat} (hn : 0 < n) (h : Config.memSize < a + n) :
    memRead m a n = .error (max a Config.memSize) := by
  simp only [memRead, firstOutOfBounds_eq_some.mpr ⟨h, hn, rfl⟩]

theorem memWrite_eq_ok {m : Memory} {a n v : Nat} (h : a + n ≤ Config.memSize) :
    memWrite m a n v = .ok (m.setBytes a (leBytes n v)) := by
  simp [memWrite, firstOutOfBounds_eq_none.mpr (.inr h)]

theorem memWrite_eq_error {m : Memory} {a n v : Nat} (hn : 0 < n) (h : Config.memSize < a + n) :
    memWrite m a n v = .error (max a Config.memSize) := by
  simp only [memWrite, firstOutOfBounds_eq_some.mpr ⟨h, hn, rfl⟩]

end Sys2Proof.Machine
end

