-- ==== Sys2Proof/Laws/PerInstr.lean ====
section
/-! SUPPORT. Statements made for each instruction as syntax. -/

namespace Sys2Proof.Laws.EncodedShape

/-- An encoding is an opcode byte that the dispatch table gives to the instruction's handler, followed by that
handler's number of operand bytes (30_encoding.md R50, R51). -/
def Statement (i : Instr) : Prop :=
  ∃ opcode operand, encode i = opcode :: operand ∧ dispatch opcode = some i.handler ∧
    operand.length = i.handler.operandBytes

theorem movR32Imm32 (r : Reg) (imm : Word) : Statement (.movR32Imm32 r imm) :=
  ⟨_, _, rfl, dispatch_movOpcode r, length_leBytes _ _⟩

theorem jmpRel32 (d : Int) : Statement (.jmpRel32 d) := ⟨_, _, rfl, rfl, length_leBytes _ _⟩

theorem jmpRel8 (d : Int) : Statement (.jmpRel8 d) := ⟨_, _, rfl, rfl, length_leBytes _ _⟩

/-- Every instruction's encoding has that shape. -/
theorem all (i : Instr) : Statement i := by
  cases i with
  | movR32Imm32 r imm => exact movR32Imm32 r imm
  | jmpRel32 d => exact jmpRel32 d
  | jmpRel8 d => exact jmpRel8 d

end Sys2Proof.Laws.EncodedShape
end

