-- ==== Sys2Proof/Laws/State.lean ====
section
/-! SUPPORT. The small lemmas of the state record: one for each field and update, and the register file's read after
write. -/

namespace Sys2Proof.Machine

section resetAt
variable (e p : Word)
@[simp] theorem State.resetAt_eip : (State.resetAt e p).eip = e := rfl
@[simp] theorem State.resetAt_flags : (State.resetAt e p).flags = 0 := rfl
@[simp] theorem State.resetAt_mem : (State.resetAt e p).mem = [] := rfl
@[simp] theorem State.resetAt_runState : (State.resetAt e p).runState = .running := rfl
@[simp] theorem State.resetAt_fault : (State.resetAt e p).fault = none := rfl
end resetAt

section setReg
variable (s : State) (r : Reg) (v : Word)
@[simp] theorem State.setReg_flags : (s.setReg r v).flags = s.flags := by cases r <;> rfl
@[simp] theorem State.setReg_eip : (s.setReg r v).eip = s.eip := by cases r <;> rfl
@[simp] theorem State.setReg_mem : (s.setReg r v).mem = s.mem := by cases r <;> rfl
@[simp] theorem State.setReg_runState : (s.setReg r v).runState = s.runState := by cases r <;> rfl
@[simp] theorem State.setReg_fault : (s.setReg r v).fault = s.fault := by cases r <;> rfl
@[simp] theorem State.reg_setReg_same : (s.setReg r v).reg r = v := by cases r <;> rfl
theorem State.reg_setReg_ne {r r' : Reg} (h : r' ≠ r) : (s.setReg r v).reg r' = s.reg r' := by
  cases r <;> cases r' <;> first | rfl | exact absurd rfl h
end setReg

section setEip
variable (s : State) (v : Word) (r : Reg)
@[simp] theorem State.setEip_regs : (s.setEip v).regs = s.regs := rfl
@[simp] theorem State.setEip_flags : (s.setEip v).flags = s.flags := rfl
@[simp] theorem State.setEip_eip : (s.setEip v).eip = v := rfl
@[simp] theorem State.setEip_mem : (s.setEip v).mem = s.mem := rfl
@[simp] theorem State.setEip_runState : (s.setEip v).runState = s.runState := rfl
@[simp] theorem State.setEip_fault : (s.setEip v).fault = s.fault := rfl
@[simp] theorem State.setEip_reg : (s.setEip v).reg r = s.reg r := by cases r <;> rfl
end setEip

section jumpRelative
variable (s : State) (d : Int) (n : Nat) (r : Reg)
@[simp] theorem State.jumpRelative_regs : (s.jumpRelative d n).regs = s.regs := rfl
@[simp] theorem State.jumpRelative_flags : (s.jumpRelative d n).flags = s.flags := rfl
@[simp] theorem State.jumpRelative_mem : (s.jumpRelative d n).mem = s.mem := rfl
@[simp] theorem State.jumpRelative_runState : (s.jumpRelative d n).runState = s.runState := rfl
@[simp] theorem State.jumpRelative_fault : (s.jumpRelative d n).fault = s.fault := rfl
@[simp] theorem State.jumpRelative_reg : (s.jumpRelative d n).reg r = s.reg r := by cases r <;> rfl
theorem State.jumpRelative_eip : (s.jumpRelative d n).eip = add32 (add32 s.eip d) n := rfl
end jumpRelative

section raise
variable (r : FaultRecord) (s : State) (q : Reg)
@[simp] theorem raise_regs : (raise r s).regs = s.regs := rfl
@[simp] theorem raise_flags : (raise r s).flags = s.flags := rfl
@[simp] theorem raise_eip : (raise r s).eip = s.eip := rfl
@[simp] theorem raise_mem : (raise r s).mem = s.mem := rfl
@[simp] theorem raise_runState : (raise r s).runState = r.runState := rfl
@[simp] theorem raise_fault : (raise r s).fault = some r := rfl
@[simp] theorem raise_reg : (raise r s).reg q = s.reg q := by cases q <;> rfl
end raise

section haltCheck
variable (s : State)
@[simp] theorem haltCheck_regs : (haltCheck s).regs = s.regs := by unfold haltCheck; split <;> rfl
@[simp] theorem haltCheck_flags : (haltCheck s).flags = s.flags := by unfold haltCheck; split <;> rfl
@[simp] theorem haltCheck_eip : (haltCheck s).eip = s.eip := by unfold haltCheck; split <;> rfl
@[simp] theorem haltCheck_mem : (haltCheck s).mem = s.mem := by unfold haltCheck; split <;> rfl
@[simp] theorem haltCheck_fault : (haltCheck s).fault = s.fault := by unfold haltCheck; split <;> rfl
@[simp] theorem haltCheck_reg (r : Reg) : (haltCheck s).reg r = s.reg r := by
  unfold haltCheck
  split <;> cases r <;> rfl
/-- `eip` at 0 halts. -/
theorem haltCheck_of_zero (h : s.eip = 0) : haltCheck s = { s with runState := .halted } := by
  rw [haltCheck, State.eipAtHalt, decide_eq_true h, if_pos rfl]
/-- Any other `eip` goes on. -/
theorem haltCheck_of_ne_zero (h : s.eip ≠ 0) : haltCheck s = s := by
  rw [haltCheck, State.eipAtHalt, decide_eq_false h, if_neg Bool.false_ne_true]
end haltCheck

/-- Two states that read the same in all eight registers have the same register file. -/
theorem State.regs_ext {s t : State} (h : ∀ r, s.reg r = t.reg r) : s.regs = t.regs := by
  have h₀ := h .eax
  have h₁ := h .ecx
  have h₂ := h .edx
  have h₃ := h .ebx
  have h₄ := h .esp
  have h₅ := h .ebp
  have h₆ := h .esi
  have h₇ := h .edi
  obtain ⟨⟨⟩⟩ := s
  obtain ⟨⟨⟩⟩ := t
  simp only [State.reg] at *
  simp only [*]

end Sys2Proof.Machine
end

