-- ==== Sys2Proof/Laws/Step.lean ====
section
/-! SUPPORT. The adder, the fetch unit and the step: what each can answer, said once. -/

namespace Sys2Proof.Machine

/-! ### The adder -/

theorem add32_eq_add (a : Word) (d : Int) : add32 a d = a + BitVec.ofInt 32 d := by
  rw [add32, BitVec.ofInt_add, BitVec.ofInt_natCast, BitVec.ofNat_toNat, BitVec.setWidth_eq]

theorem add32_natCast (a : Word) (n : Nat) : add32 a (n : Int) = a + BitVec.ofNat 32 n := by
  rw [add32_eq_add, BitVec.ofInt_natCast]

/-- `+_32` is addition modulo 2^32 of the integers. -/
theorem add32_toNat (a : Word) (d : Int) : ((add32 a d).toNat : Int) = ((a.toNat : Int) + d) % 4294967296 := by
  rw [add32, BitVec.toNat_ofInt]
  have : (0 : Int) ≤ ((a.toNat : Int) + d) % ((2 ^ 32 : Nat) : Int) := Int.emod_nonneg _ (by decide)
  rw [Int.toNat_of_nonneg this]
  rfl

theorem add32_add32 (a : Word) (d e : Int) : add32 (add32 a d) e = add32 a (d + e) := by
  simp only [add32_eq_add, BitVec.ofInt_add, BitVec.add_assoc]

/-! ### The fetch unit -/

theorem fetchRaw_eq_ok {s : State} {o n : Nat} (h : s.eip.toNat + o + n ≤ Config.memSize) :
    fetchRaw s o n = .ok (leNat (s.mem.bytesAt (s.eip.toNat + o) n)) := by
  simp [fetchRaw, memRead_eq_ok h]

theorem fetchRaw_eq_error {s : State} {o n : Nat} (hn : 0 < n) (h : Config.memSize < s.eip.toNat + o + n) :
    fetchRaw s o n = .error (outOfBoundsAt (max (s.eip.toNat + o) Config.memSize)) := by
  simp [fetchRaw, memRead_eq_error hn h]

theorem fetchU8_eq_ok {s : State} {o : Nat} (h : s.eip.toNat + o < Config.memSize) :
    fetchU8 s o = .ok (s.mem.byteAt (s.eip.toNat + o)) := by
  rw [fetchU8, fetchRaw_eq_ok (by omega)]
  simp [Except.map, Memory.bytesAt, leNat]

theorem fetchOpcode_eq_ok {s : State} (h : s.eip.toNat < Config.memSize) :
    fetchOpcode s = .ok (s.mem.byteAt s.eip.toNat) := by
  rw [fetchOpcode, State.eipOutOfBounds, decide_eq_false (by omega), if_neg Bool.false_ne_true, fetchU8_eq_ok (o := 0) h]
  rfl

theorem fetchOpcode_eq_error {s : State} (h : Config.memSize ≤ s.eip.toNat) :
    fetchOpcode s = .error (.outOfBoundsAccess s.eip) := by
  rw [fetchOpcode, State.eipOutOfBounds, decide_eq_true h, if_pos rfl]

/-- The operands in bounds: the handler's instruction, from the operand bytes read as one number. -/
theorem fetchOperands_eq_ok {s : State} {b : Byte} {hd : Handler}
    (h : s.eip.toNat + 1 + hd.operandBytes ≤ Config.memSize) :
    fetchOperands s b hd = .ok (hd.instr b (leNat (s.mem.bytesAt (s.eip.toNat + 1) hd.operandBytes))) := by
  cases hd <;> rw [fetchOperands] <;>
    simp only [fetchU32le, fetchI8, fetchU8, Handler.operandBytes] at * <;> rw [fetchRaw_eq_ok h] <;> rfl

/-- An operand byte out of bounds: the offset recorded is `MEM_SIZE`. -/
theorem fetchOperands_eq_error {s : State} {b : Byte} {hd : Handler} (hs : s.eip.toNat < Config.memSize)
    (h : Config.memSize < s.eip.toNat + 1 + hd.operandBytes) :
    fetchOperands s b hd = .error (outOfBoundsAt Config.memSize) := by
  have hm : max (s.eip.toNat + 1) Config.memSize = Config.memSize := by omega
  cases hd <;> rw [fetchOperands] <;>
    simp only [fetchU32le, fetchI8, fetchU8, Handler.operandBytes] at * <;>
    rw [fetchRaw_eq_error (by decide) h, hm] <;> rfl

theorem fetchInstr_beyond {s : State} (h : Config.memSize ≤ s.eip.toNat) :
    fetchInstr s = .error (.outOfBoundsAccess s.eip) := by
  simp [fetchInstr, fetchOpcode_eq_error h]

theorem fetchInstr_unimplemented {s : State} (h : s.eip.toNat < Config.memSize)
    (hd : dispatch (s.mem.byteAt s.eip.toNat) = none) :
    fetchInstr s = .error (.unimplementedOpcode (s.mem.byteAt s.eip.toNat) s.eip) := by
  simp [fetchInstr, fetchOpcode_eq_ok h, hd]

theorem fetchInstr_handled {s : State} {hd : Handler} (h : s.eip.toNat < Config.memSize)
    (hh : dispatch (s.mem.byteAt s.eip.toNat) = some hd) :
    fetchInstr s = fetchOperands s (s.mem.byteAt s.eip.toNat) hd := by
  simp [fetchInstr, fetchOpcode_eq_ok h, hh]

/-- The spec's sum of four bytes is the number the fetch assembles. -/
theorem Memory.wordAt_eq (m : Memory) (a : Nat) : m.wordAt a = BitVec.ofNat 32 (leNat (m.bytesAt a 4)) := by
  simp only [Memory.wordAt, Memory.bytesAt, leNat, Nat.add_assoc, Nat.reduceAdd]
  congr 1
  omega

/-! ### The handlers and the step -/

/-- Every handler goes on and writes no item of state but the general registers and `eip`. -/
theorem exec_next (i : Instr) (s : State) :
    ∃ t, exec i s = .next t ∧ t.flags = s.flags ∧ t.mem = s.mem ∧ t.runState = s.runState ∧ t.fault = s.fault := by
  cases i <;> exact ⟨_, rfl, by simp⟩

theorem stepUndefined_eq_none {s : State} : stepUndefined s = none ↔ s.runState = .running := by
  unfold stepUndefined
  split <;> simp_all

theorem step_eq_error {s : State} {r : FaultRecord} (hs : s.runState = .running) (h : fetchInstr s = .error r) :
    step s = .next (raise r s) := by
  simp [step, stepUndefined_eq_none.mpr hs, h]

theorem step_eq_ok {s : State} {i : Instr} (hs : s.runState = .running) (h : fetchInstr s = .ok i) :
    step s = afterHandler (exec i s) := by
  simp [step, stepUndefined_eq_none.mpr hs, h]

/-- Everything a step can do: it starts in RUNNING, and either takes the fault its fetch raises or runs a handler and
makes the halt check. -/
theorem step_next_cases {s t : State} (h : step s = .next t) :
    s.runState = .running ∧
      ((∃ r, fetchInstr s = .error r ∧ t = raise r s) ∨
        ∃ i u, fetchInstr s = .ok i ∧ exec i s = .next u ∧ t = haltCheck u) := by
  cases hu : stepUndefined s with
  | some f => simp [step, hu] at h
  | none =>
    refine ⟨stepUndefined_eq_none.mp hu, ?_⟩
    cases hf : fetchInstr s with
    | error r =>
      simp only [step, hu, hf, Host.Outcome.next.injEq] at h
      exact .inl ⟨r, rfl, h.symm⟩
    | ok i =>
      obtain ⟨u, hx, -⟩ := exec_next i s
      simp only [step, hu, hf, hx, afterHandler, Host.Outcome.next.injEq] at h
      exact .inr ⟨i, u, rfl, hx, h.symm⟩

end Sys2Proof.Machine
end

