-- ==== Sys2Proof/Laws/Run.lean ====
section
/-! SUPPORT. Runs and the loader: what any number of steps keeps, said once, and the loader's copy as one write. -/

namespace Sys2Proof.Machine

theorem step_stopped {s : State} (h : s.runState ≠ .running) : step s = .fault (.stopped s.runState) := by
  unfold step stepUndefined
  cases hr : s.runState <;> simp_all

/-- A state in RUNNING has a next state: no instruction stops the model. -/
theorem step_running {s : State} (h : s.runState = .running) : ∃ t, step s = .next t := by
  cases hf : fetchInstr s with
  | error r => exact ⟨_, step_eq_error h hf⟩
  | ok i =>
    obtain ⟨u, hu, -⟩ := exec_next i s
    exact ⟨_, by rw [step_eq_ok h hf, hu, afterHandler]⟩

theorem runFor_succ {s t : State} (h : step s = .next t) (n : Nat) : runFor (n + 1) s = runFor n t := by
  simp [runFor, h]

theorem runFor_stopped {s : State} (h : s.runState ≠ .running) (n : Nat) : runFor n s = s := by
  cases n with
  | zero => rfl
  | succ n => simp [runFor, step_stopped h]

theorem runFor_add (m n : Nat) (s : State) : runFor (m + n) s = runFor n (runFor m s) := by
  induction m generalizing s with
  | zero => simp [runFor]
  | succ m ih =>
    by_cases hr : s.runState = .running
    · obtain ⟨t, ht⟩ := step_running hr
      rw [runFor_succ ht, Nat.add_right_comm, runFor_succ ht, ih]
    · simp [runFor_stopped hr]

/-- What every step keeps, every run keeps. -/
theorem runFor_keeps {P : State → Prop} (hstep : ∀ s t, P s → step s = .next t → P t) (n : Nat) (s : State)
    (h : P s) : P (runFor n s) := by
  induction n generalizing s with
  | zero => exact h
  | succ n ih =>
    by_cases hr : s.runState = .running
    · obtain ⟨t, ht⟩ := step_running hr
      rw [runFor_succ ht]
      exact ih t (hstep s t h ht)
    · rwa [runFor_stopped hr]

/-- The bytes of a number, one by one. -/
theorem getElem?_leBytes {n i : Nat} (v : Nat) (h : i < n) :
    (leBytes n v)[i]? = some (BitVec.ofNat 8 (v / 2 ^ (8 * i))) := by
  induction n generalizing v i with
  | zero => omega
  | succ n ih =>
    cases i with
    | zero => simp [leBytes]
    | succ i =>
      rw [leBytes, List.getElem?_cons_succ, ih _ (by omega), Nat.div_div_eq_div_mul,
        show 8 * (i + 1) = 8 + 8 * i by omega, Nat.pow_add]

/-- Reading a range just written gives the bytes back. -/
theorem Memory.bytesAt_setBytes {m : Memory} (hm : m.wf = true) {a : Nat} {bs : List Byte}
    (h : a + bs.length ≤ Config.memSize) : (m.setBytes a bs).bytesAt a bs.length = bs := by
  apply List.ext_getElem
  · simp
  · intro i h1 h2
    rw [Memory.getElem_bytesAt, Memory.byteAt_setBytes hm (.inr h), if_pos (by omega), Nat.add_sub_cancel_left,
      List.getElem?_eq_getElem h2, Option.getD_some]

/-- The loader's copy of an image that fits is one write of its bytes: it never fails. -/
theorem copyImage_eq_ok {m : Memory} (hm : m.wf = true) {a : Nat} {bs : List Byte}
    (h : bs = [] ∨ a + bs.length ≤ Config.memSize) : copyImage m a bs = .ok (m.setBytes a bs) := by
  induction bs generalizing m a with
  | nil => rfl
  | cons b bs ih =>
    simp only [List.length_cons, reduceCtorEq, false_or] at h
    have hb : leBytes 1 b.toNat = [b] := by simp [leBytes]
    rw [copyImage, memWrite_eq_ok (by omega), hb]
    exact ih (Memory.wf_setByte hm (by omega) b) (.inr (by omega))

end Sys2Proof.Machine
end

