-- ==== Sys2Proof/Tests/Slice0.lean ====
section
/-! SUPPORT. The model's own tests, their expected results taken from spec/ (each names its source), and for each
statement with hypotheses a named witness that meets them, at the boundary values of its clauses. -/

namespace Sys2Proof.Tests

open Sys2Proof.Machine

/-! ### Helpers -/

/-- A state in RUNNING at `p` with bytes stored from `p` up, everything else as after reset. -/
def running (p : Word) (bytes : List Byte) : State :=
  { State.resetAt p 0 with mem := Memory.setBytes [] p.toNat bytes }

/-- The next state, if a step has one. -/
def next? : Host.Outcome State Fault Refusal → Option State
  | .next s => some s
  | .fault _ => none
  | .refused _ => none

/-! ### Well-formedness: one ill-formed term for each check -/

theorem test_wf_refuses_rel8_above : (Instr.jmpRel8 128).wf = false := by decide
theorem test_wf_refuses_rel8_below : (Instr.jmpRel8 (-129)).wf = false := by decide
theorem test_wf_refuses_rel32_above : (Instr.jmpRel32 2147483648).wf = false := by decide
theorem test_wf_refuses_rel32_below : (Instr.jmpRel32 (-2147483649)).wf = false := by decide

/-! ### Decoding: words written out from 30_encoding.md R52 to R54, bytes in memory order -/

/-- Format OI with r = 1: `10111 001`, imm32 = 0x80000000 (95_test_vectors.md M-4). -/
theorem test_decode_mov_ecx : decode [0b10111001, 0x00, 0x00, 0x00, 0x80] =
    .ok (.movR32Imm32 .ecx 0x80000000, []) := by rfl

/-- Format J32: `11101001`, rel32 = -4101 (95_test_vectors.md N-6). -/
theorem test_decode_jmp_near : decode [0b11101001, 0xFB, 0xEF, 0xFF, 0xFF] = .ok (.jmpRel32 (-4101), []) := by rfl

/-- Format J8: `11101011`, rel8 = -128 (95_test_vectors.md J-6). -/
theorem test_decode_jmp_short : decode [0b11101011, 0x80] = .ok (.jmpRel8 (-128), []) := by rfl

/-- 95_test_vectors.md D-1, D-3, D-4, D-6, D-8 and D-9. -/
theorem test_dispatch_none : [0xB7, 0xC0, 0xE8, 0xEA, 0xEC, 0x00, 0x0F, 0x66, 0x90, 0xCC, 0xCD, 0xF0, 0xF4, 0xFF].all
    (fun b => decide (dispatch b = none)) = true := by decide

/-- The host's numbering: the opcode byte alone, every operand bit zero (30_encoding.md R50). -/
theorem test_table_word_mov : decodeTableWord 8 0xBD = some (.movR32Imm32 .ebp 0) := by decide

/-- The host's numbering: 40 bits, the operand above the opcode byte (30_encoding.md R52). -/
theorem test_table_word_jmp_near : decodeTableWord 40 0x7FFFFFFFE9 = some (.jmpRel32 2147483647) := by decide

/-- The host's numbering: 16 bits (30_encoding.md R53). -/
theorem test_table_word_jmp_short : decodeTableWord 16 0xFEEB = some (.jmpRel8 (-2)) := by decide

/-- 30_encoding.md R52 to R54. -/
theorem test_encode : encode (.movR32Imm32 .edi 0x12345678) = [0xBF, 0x78, 0x56, 0x34, 0x12] ∧
    encode (.jmpRel32 (-0x7C16)) = [0xE9, 0xEA, 0x83, 0xFF, 0xFF] ∧ encode (.jmpRel8 (-14)) = [0xEB, 0xF2] := by decide

/-! ### One step (95_test_vectors.md, by vector) -/

/-- M-5: the last place a MOV fits. -/
theorem test_step_mov_at_the_end : (next? (step (running 0xFFFFB [0xBE, 0x0D, 0xF0, 0xAD, 0xDE]))).map
    (fun t => (t.reg .esi, t.reg .edi, t.eip, t.runState)) = some (0xDEADF00D, 0, 0x100000, .running) := by decide

/-- M-6: the fourth immediate byte is out of bounds. -/
theorem test_step_mov_out_of_bounds : (next? (step (running 0xFFFFC [0xBE, 0x0D, 0xF0, 0xAD]))).map
    (fun t => (t.reg .esi, t.eip, t.runState, t.fault)) =
      some (0, 0xFFFFC, .outOfBounds, some (.outOfBoundsAccess 0x100000)) := by decide

/-- J-8: a negative target wraps and the jump itself completes. -/
theorem test_step_short_jump_wraps : (next? (step (running 0x10 [0xEB, 0x80]))).map
    (fun t => (t.eip, t.runState, t.fault)) = some (0xFFFFFF92, .running, none) := by decide

/-- J-7: a target of exactly 0 halts. -/
theorem test_step_short_jump_halts : (next? (step (running 0x7E [0xEB, 0x80]))).map
    (fun t => (t.eip, t.runState, t.fault)) = some (0, .halted, none) := by decide

/-- N-13: a backward near jump from the last place it fits. -/
theorem test_step_near_jump_back : (next? (step (running 0xFFFFB [0xE9, 0x00, 0x7C, 0xF0, 0xFF]))).map
    (fun t => (t.eip, t.runState, t.fault)) = some (0x7C00, .running, none) := by decide

/-- N-10: the most negative displacement. -/
theorem test_step_near_jump_most_negative : (next? (step (running 0x1000 [0xE9, 0x00, 0x00, 0x00, 0x80]))).map
    (fun t => (t.eip, t.runState)) = some (0x80001005, .running) := by decide

/-- X-4: an unimplemented opcode in the last byte is unimplemented, not out of bounds. -/
theorem test_step_unimplemented_last_byte : (next? (step (running 0xFFFFF [0x90]))).map
    (fun t => (t.eip, t.runState, t.fault)) =
      some (0xFFFFF, .unimplemented, some (.unimplementedOpcode 0x90 0xFFFFF)) := by decide

/-- X-6: a reset at 0 does not halt; the step there runs and finds byte 0. -/
theorem test_step_from_reset : (next? (step State.reset)).map (fun t => (t.runState, t.fault)) =
    some (.unimplemented, some (.unimplementedOpcode 0 0)) := by decide

/-! ### Memory, the host's side and the assembler -/

/-- Writing the unlisted value removes the entry; a write above goes behind. -/
theorem test_memory_canonical : Memory.setByte (Memory.setByte (Memory.setByte [] 5 1) 2 7) 5 0 = [(2, 7)] ∧
    Memory.setByte [(2, 7)] 5 1 = [(2, 7), (5, 1)] := by decide

/-- L-2 and L-5: an image that does not fit, and a base whose sum would wrap. -/
theorem test_load_overflows : load 0xFFFFE [1, 2, 3] 0x200 State.reset = .error .loaderOverflow ∧
    load 0xFFFFFFFF [1] 0x200 State.reset = .error .loaderOverflow := ⟨rfl, rfl⟩

/-- L-3: the image is cut at `LOAD_MAX`. -/
theorem test_load_cuts_the_image : load 0xFFFFE [1, 2, 3] 2 State.reset =
    .ok { State.reset with mem := [(0xFFFFE, 1), (0xFFFFF, 2)] } := by rfl

/-- X-10: the step that raises for `eip` beyond memory emits nothing. -/
theorem test_trace : traceOf true (running 0xFFFFE [0xEB, 0]) = some { eip := 0xFFFFE, opcode := 0xEB } ∧
    traceOf true (running 0x100000 []) = none := by decide

/-- The listing of P1 and its image. -/
theorem test_assemble : assemble 0x7C00
    [.mov .eax 41, .jmpShort 0x7C0C, .mov .ecx 0xFFFFFFFF, .mov .ebx 0x12345678, exitIdiom] =
      some [0xB8, 0x29, 0, 0, 0, 0xEB, 0x05, 0xB9, 0xFF, 0xFF, 0xFF, 0xFF, 0xBB, 0x78, 0x56, 0x34, 0x12,
        0xE9, 0xEA, 0x83, 0xFF, 0xFF] := by decide

/-- A session: no step before a reset, none after an overflow, no second load. -/
theorem test_session : transact true .noCore (.run 1) = .error .noReset ∧
    transact true (.live .overflowed State.reset) (.run 1) = .error .runAfterOverflow ∧
    transact true (.live .loaded State.reset) (.load 0 [] 0) = .error .loadNotAllowed := by decide

/-! ### Witnesses for the statements' hypotheses -/

theorem witness_DecodeOfEncode : (Instr.jmpRel8 127).wf = true ∧ (Instr.jmpRel8 (-128)).wf = true ∧
    (Instr.jmpRel32 2147483647).wf = true ∧ (Instr.jmpRel32 (-2147483648)).wf = true ∧
    (Instr.movR32Imm32 .esp 0).wf = true := by decide

theorem witness_EncodeOfDecode : decode [0xB8, 1, 2, 3, 4, 5] = .ok (.movR32Imm32 .eax 0x04030201, [5]) := by rfl

/-- An opcode without a handler, an operand one byte short, and one just long enough. -/
theorem witness_DecoderRejects : dispatch 0xEA = none ∧
    (dispatch 0xE9 = some .jmpRel32 ∧ [1, 2, 3].length < Handler.jmpRel32.operandBytes) ∧
    (dispatch 0xE9 = some .jmpRel32 ∧ Handler.jmpRel32.operandBytes ≤ [1, 2, 3, 4].length) := by decide

/-- Both cases, the second at the last place the instruction fits, with an instruction fetched. -/
theorem witness_OpcodeByteAlone : ((running 0xFFFFF [0x90]).eip.toNat < Config.memSize ∧
      dispatch ((running 0xFFFFF [0x90]).mem.byteAt 0xFFFFF) = none) ∧
    ((running 0xFFFFE [0xEB, 3]).eip.toNat + Handler.jmpRel8.length ≤ Config.memSize ∧
      dispatch ((running 0xFFFFE [0xEB, 3]).mem.byteAt 0xFFFFE) = some .jmpRel8) ∧
    fetchInstr (running 0xFFFFE [0xEB, 3]) = .ok (.jmpRel8 3) := ⟨by decide, by decide, rfl⟩

/-- The last place each length fits. -/
theorem witness_StepRunsTheDecodedInstruction :
    ((running 0xFFFFE [0xEB, 3]).runState = .running ∧ (running 0xFFFFE [0xEB, 3]).eip.toNat + 2 ≤ Config.memSize ∧
      decode ((running 0xFFFFE [0xEB, 3]).mem.bytesAt 0xFFFFE 2) = .ok (.jmpRel8 3, [])) ∧
    ((running 0xFFFFB [0xB8, 1, 0, 0, 0]).runState = .running ∧
      (running 0xFFFFB [0xB8, 1, 0, 0, 0]).eip.toNat + 5 ≤ Config.memSize ∧
      decode ((running 0xFFFFB [0xB8, 1, 0, 0, 0]).mem.bytesAt 0xFFFFB 5) = .ok (.movR32Imm32 .eax 1, [])) ∧
    ((running 0xFFFFB [0xE9, 1, 0, 0, 0]).runState = .running ∧
      (running 0xFFFFB [0xE9, 1, 0, 0, 0]).eip.toNat + 5 ≤ Config.memSize ∧
      decode ((running 0xFFFFB [0xE9, 1, 0, 0, 0]).mem.bytesAt 0xFFFFB 5) = .ok (.jmpRel32 1, [])) :=
  ⟨⟨rfl, by decide, rfl⟩, ⟨rfl, by decide, rfl⟩, ⟨rfl, by decide, rfl⟩⟩

/-- Another register than the destination. -/
theorem witness_MovWritesOneRegister : Reg.ecx ≠ Reg.esp := by decide

/-- Both jumps. -/
theorem witness_JumpsWriteOnly :
    (Instr.jmpRel32 (-7) = .jmpRel32 (-7) ∧ (5 : Int) = 5) ∧ (Instr.jmpRel8 (-7) = .jmpRel8 (-7) ∧ (2 : Int) = 2) := by
  decide

/-- MOV: an interior place, the last place it fits, and the first where it does not. -/
theorem witness_StepOfMov : [(0x7C00, 0xB8), (0xFFFFB, 0xBF), (0xFFFFC, 0xBF), (0xFFFFF, 0xB8)].all (fun x =>
      let s := running x.1 [x.2]
      decide (s.runState = .running) && decide (s.eip.toNat < Config.memSize) &&
        decide (0xB8 ≤ (s.mem.byteAt s.eip.toNat).toNat) && decide ((s.mem.byteAt s.eip.toNat).toNat ≤ 0xBF)) = true ∧
    0xFFFFB + 4 < Config.memSize ∧ 0xFFFFB + 5 = Config.memSize ∧ Config.memSize ≤ 0xFFFFC + 4 := by decide

/-- Short jump: the last place it fits, one that halts, one whose target is beyond memory, and the first place where
it does not fit. -/
theorem witness_StepOfShortJump : [0xFFFFE, 0x7E, 0x10, 0xFFFFF].all (fun p =>
      let s := running p [0xEB, 0x80]
      decide (s.runState = .running) && decide (s.eip.toNat < Config.memSize) &&
        decide (s.mem.byteAt s.eip.toNat = 0xEB)) = true ∧
    0xFFFFE + 1 < Config.memSize ∧ Config.memSize ≤ 0xFFFFF + 1 ∧
    (next? (step (running 0x7E [0xEB, 0x80]))).map (·.eip) = some 0 ∧
    (next? (step (running 0x10 [0xEB, 0x80]))).map (fun t => decide (Config.memSize ≤ t.eip.toNat)) = some true := by
  decide

/-- Near jump: the last place it fits, one that halts, one whose target is beyond memory, the first place where it does
not fit, and a displacement that reaches the last valid address. -/
theorem witness_StepOfNearJump : [0xFFFFB, 0, 0x1000, 0xFFFFC].all (fun p =>
      let s := running p [0xE9, 0xFB, 0xFF, 0xFF, 0xFF]
      decide (s.runState = .running) && decide (s.eip.toNat < Config.memSize) &&
        decide (s.mem.byteAt s.eip.toNat = 0xE9)) = true ∧
    0xFFFFB + 4 < Config.memSize ∧ Config.memSize ≤ 0xFFFFC + 4 ∧
    (next? (step (running 0 [0xE9, 0xFB, 0xFF, 0xFF, 0xFF]))).map (·.eip) = some 0 ∧
    (next? (step (running 0 [0xE9, 0xFB, 0xFF, 0x0F, 0]))).map (fun t => decide (Config.memSize ≤ t.eip.toNat)) =
      some true ∧
    (running 0 [0xE9, 0xFA, 0xFF, 0x0F, 0]).mem.wordAt 1 = (0xFFFFF : Word) - 0 - 5 := by decide

/-- Both halves of the byte range at their boundary. -/
theorem witness_ShortDisplacement : (0x7F : Byte).toNat < 0x80 ∧ 0x80 ≤ (0x80 : Byte).toNat := by decide

/-- A target of -1, of 0 and the lowest of each jump. -/
theorem witness_NegativeJumpTargets : (running 0 []).eip.toNat < Config.memSize ∧
    (Instr.jmpRel8 (-3)).wf = true ∧ (0 : Int) + (-3) + 2 < 0 ∧
    (Instr.jmpRel8 (-2)).wf = true ∧ (0 : Int) ≤ 0 + (-2) + 2 ∧
    (Instr.jmpRel32 (-2147483648)).wf = true ∧ (0 : Int) + (-2147483648) + 5 < 0 := by decide

/-- A near and a short jump at the last places they fit, one of them to 0, and a spin. -/
theorem witness_AssembledJumps :
    (assembleLine 0xFFFFB (.jmpNear 0) = some ((running 0xFFFFB [0xE9, 0x00, 0x00, 0xF0, 0xFF]).mem.bytesAt 0xFFFFB 5) ∧
      0xFFFFB + 5 ≤ Config.memSize) ∧
    (assembleLine 0xFFFFE (spinIdiom 0xFFFFE) = some ((running 0xFFFFE [0xEB, 0xFE]).mem.bytesAt 0xFFFFE 2) ∧
      0xFFFFE + 2 ≤ Config.memSize) ∧ (running 0xFFFFE [0xEB, 0xFE]).runState = .running := by decide

/-- A handler that ends at 0 and one that does not, and a step into HALTED from a state that meets the invariant. -/
theorem witness_HaltCheck :
    (fetchInstr (running 0 [0xEB, 0xFE]) = .ok (.jmpRel8 (-2)) ∧
      (next? (exec (.jmpRel8 (-2)) (running 0 [0xEB, 0xFE]))).map (·.eip) = some 0) ∧
    (fetchInstr (running 0 [0xEB, 0x00]) = .ok (.jmpRel8 0) ∧
      (next? (exec (.jmpRel8 0) (running 0 [0xEB, 0x00]))).map (·.eip) = some 2) ∧
    (running 0 [0xEB, 0xFE]).inv = true ∧
    (next? (step (running 0 [0xEB, 0xFE]))).map (·.runState) = some .halted :=
  ⟨⟨rfl, by decide⟩, ⟨rfl, by decide⟩, by decide, by decide⟩

/-- An unimplemented byte at the last address, and a step into UNIMPLEMENTED. -/
theorem witness_UnimplementedOpcode : (running 0xFFFFF [0x90]).runState = .running ∧
    (running 0xFFFFF [0x90]).eip.toNat < Config.memSize ∧
    dispatch ((running 0xFFFFF [0x90]).mem.byteAt 0xFFFFF) = none ∧
    (next? (step (running 0xFFFFF [0x90]))).map (·.runState) = some .unimplemented := by decide

/-- The first and the last value of `eip` beyond memory. -/
theorem witness_InstructionPointerBeyond : (running 0x100000 []).runState = .running ∧
    Config.memSize ≤ (running 0x100000 []).eip.toNat ∧ Config.memSize ≤ (running 0xFFFFFFFF []).eip.toNat := by decide

/-- Each of the four conditions, the last two at their common boundary. -/
theorem witness_StepTestsItsConditions : Config.memSize ≤ (running 0x100000 []).eip.toNat ∧
    ((running 0xFFFFF [0x90]).eip.toNat < Config.memSize ∧
      dispatch ((running 0xFFFFF [0x90]).mem.byteAt 0xFFFFF) = none) ∧
    (dispatch ((running 0xFFFFC [0xE9]).mem.byteAt 0xFFFFC) = some .jmpRel32 ∧
      Config.memSize < 0xFFFFC + Handler.jmpRel32.length) ∧
    (dispatch ((running 0xFFFFB [0xE9]).mem.byteAt 0xFFFFB) = some .jmpRel32 ∧
      0xFFFFB + Handler.jmpRel32.length ≤ Config.memSize) := by decide

/-- Both places of the fault, each at its first address, reached from RUNNING. -/
theorem witness_OutOfBounds :
    (next? (step (running 0x100000 []))).map (·.runState) = some .outOfBounds ∧
    (next? (step (running 0xFFFFC [0xB8]))).map (·.runState) = some .outOfBounds ∧
    (next? (step (running 0xFFFFC [0xE9]))).map (·.runState) = some .outOfBounds ∧
    (next? (step (running 0xFFFFF [0xEB]))).map (·.runState) = some .outOfBounds := by decide

/-- A step into each fault. -/
theorem witness_FaultsArePrecise :
    (next? (step (running 5 [0x0F]))).map (·.isFaulted) = some true ∧
    (next? (step (running 0xFFFFF [0xEB]))).map (·.isFaulted) = some true := by decide

/-- A running and a terminal state. -/
theorem witness_TerminalStates : (running 0 []).runState = .running ∧
    ({ running 0 [] with runState := .halted } : State).runState ≠ .running := by decide

theorem witness_ResetTakesTheHostsLaunchValues : Config.memSize ≤ (0x100000 : Word).toNat := by decide

theorem witness_ResetZeroes : Reg.edi ≠ Reg.esp ∧ 0xFFFFF < Config.memSize := by decide

/-- States that meet the invariant, one for each outcome of a step: it goes on, halts, and faults in both ways. -/
theorem witness_EveryStepKeepsTheInvariant :
    [running 0 [0xB8], running 0 [0xEB, 0xFE], running 0 [0x0F], running 0xFFFFF [0xEB], running 0x100000 []].all
      (fun s => s.inv && (next? (step s)).isSome) = true := by decide

/-- Two states that differ in a register, `flags` and nothing else. -/
theorem witness_GeneralRegistersNeverSteer :
    ((running 0 [0xB8]).setReg .eax 1).eip = (running 0 [0xB8]).eip ∧
    ((running 0 [0xB8]).setReg .eax 1).mem = (running 0 [0xB8]).mem ∧
    ((running 0 [0xB8]).setReg .eax 1).runState = (running 0 [0xB8]).runState ∧
    ((running 0 [0xB8]).setReg .eax 1).fault = (running 0 [0xB8]).fault ∧
    (running 0 [0xB8]).setReg .eax 1 ≠ running 0 [0xB8] := by decide

/-- A memory that differs just after the instruction: the step is defined, and the bytes the statement asks about
agree. -/
theorem witness_StepReadsOnlyItsOwn : (next? (step (running 0 [0xEB, 3]))).isSome = true ∧
    (List.range 2).all (fun a => Memory.byteAt [(0, 0xEB), (1, 3), (2, 9)] a == (running 0 [0xEB, 3]).mem.byteAt a) = true ∧
    dispatch ((running 0 [0xEB, 3]).mem.byteAt 0) = some .jmpRel8 ∧ Handler.jmpRel8.length = 2 := by decide

/-- A step that stays in RUNNING. -/
theorem witness_RunningNeverResumes : (runFor 1 (running 0 [0xEB, 3])).runState = .running := by decide

/-- A run that ends, and one step of it. -/
theorem witness_ARunEnds : (running 0 [0xEB, 0xFE]).endsIn (runFor 1 (running 0 [0xEB, 0xFE])) :=
  ⟨1, rfl, by decide⟩

/-- The last word that fits and the first that does not. -/
theorem witness_MemWrite : Memory.wf [(3, 1)] = true ∧ 0xFFFFC + 4 ≤ Config.memSize ∧ 0 < 4 ∧
    Config.memSize < 0xFFFFD + 4 ∧ (next? (exec (.jmpRel8 0) State.reset)).isSome = true := by decide

/-- The boundaries of both widths. -/
theorem witness_MemRead : 0xFFFFF + 1 ≤ Config.memSize ∧ 0xFFFFC + 4 ≤ Config.memSize ∧
    Config.memSize < 0x100000 + 1 ∧ Config.memSize < 0xFFFFD + 4 := by decide

/-- The boundaries of the three primitives (95_test_vectors.md F-7 to F-9). -/
theorem witness_FetchPrimitives : (running 0xFFFFF []).eip.toNat + 0 < Config.memSize ∧
    Config.memSize ≤ (running 0xFFFFF []).eip.toNat + 1 ∧ (running 0xFFFFB []).eip.toNat + 1 + 3 < Config.memSize ∧
    Config.memSize ≤ (running 0xFFFFC []).eip.toNat + 1 + 3 ∧ (running 0xFFFFF []).eip.toNat + 1 < 2 ^ 32 ∧
    Config.memSize ≤ (running 0xFFFFFFFF []).eip.toNat + 0 ∧ (running 0xFFFFFFFF []).eip.toNat + 0 < 2 ^ 32 := by decide

/-- An image that ends at the last byte, and one byte more (95_test_vectors.md L-1, L-2). -/
theorem witness_Load : State.reset.mem.wf = true ∧
    (0xFFFFE : Word).toNat + min [1, 2].length 0x200 ≤ Config.memSize ∧
    Config.memSize < (0xFFFFE : Word).toNat + min [1, 2, 3].length 0x200 := by decide

/-- A load that succeeds, with a byte of the image to ask about. -/
theorem witness_LaunchedRuns : load 0xFFFFE [0xEB, 0xFE] 0x200 (State.resetAt 0xFFFFE 7) =
    .ok { State.resetAt 0xFFFFE 7 with mem := [(0xFFFFE, 0xEB), (0xFFFFF, 0xFE)] } ∧
    1 < [0xEB, 0xFE].length := ⟨rfl, by decide⟩

/-- A session in its invariant for which each transaction is accepted. -/
theorem witness_EveryTransaction : (Session.live .afterReset State.reset).inv = true ∧
    [Transaction.reset 0 0, .load 0 [0xEB] 9, .load 0xFFFFF [1, 2] 9, .run 1, .view].all (fun x =>
      (transact true (.live .afterReset State.reset) x).toOption.isSome) = true := by decide

/-- A session that may run, and the two replies of a load. -/
theorem witness_HostDuties : Phase.loaded ≠ Phase.overflowed ∧ State.reset.runState = .running ∧
    (transact true (.live .afterReset State.reset) (.load 0 [0xEB] 9)).toOption.map (·.2) = some (.loadResult false) ∧
    (transact true (.live .afterReset State.reset) (.load 0xFFFFF [1, 2] 9)).toOption.map (·.2) =
      some (.loadResult true) := by decide

/-- A state for each clause. -/
theorem witness_Trace : (running 0xFFFFF []).runState = .running ∧ (running 0xFFFFF []).eip.toNat < Config.memSize ∧
    Config.memSize ≤ (running 0x100000 []).eip.toNat ∧
    ({ running 0 [] with runState := .unimplemented } : State).runState ≠ .running := by decide

/-- Each row of the table, placed at reset. -/
theorem witness_PlacedInstruction : State.reset.mem.wf = true ∧
    decodeTableWord 40 0xB8 = some (.movR32Imm32 .eax 0) ∧ decodeTableWord 40 0xE9 = some (.jmpRel32 0) ∧
    decodeTableWord 16 0xEB = some (.jmpRel8 0) ∧
    [0xB8, 0xE9, 0xEB].all (fun w => (next? (step (State.reset.withFetchWord 40 w))).isSome) = true := by decide

/-- The last place an instruction may stand without being moved, and the first from which it is. -/
theorem test_place_address : placeAddress (running 0xFFFFB []) = 0xFFFFB ∧ placeAddress (running 0xFFFFC []) = 0 := by
  decide

end Sys2Proof.Tests
end

section
/-! PROOF. The general statements of 10_state.md: the register numbering (R11), `flags` (R17), the launch values
(R25). -/

namespace Sys2Proof.Machine

/-! ### The register file -/

theorem State.reg_setReg (s : State) (r q : Reg) (v : Word) :
    (s.setReg r v).reg q = if q = r then v else s.reg q := by
  split
  · next h => rw [h, State.reg_setReg_same]
  · next h => exact State.reg_setReg_ne s v h

/-- Settles O3: 0xB8 plus the index, in eight bits, is the MOV opcode byte of the register, and the register file
reads back what was written. -/
theorem registerNumberIsTheMovOpcodeField : Obligations.RegisterNumberIsTheMovOpcodeField := by
  have opcode_eq (r : Reg) : 0xB8#8 + BitVec.ofNat 8 r.index = BitVec.ofNat 8 (0xB8 + r.index) :=
    (BitVec.ofNat_add 0xB8 r.index).symm
  refine ⟨rfl, fun r => ?_, State.reg_setReg⟩
  rw [opcode_eq]
  exact ⟨dispatch_movOpcode r, regOfOpcode_ofIndex r⟩

/-! ### `flags`

Every part of a step commutes with putting a pattern in `flags`. -/

section flags
variable (s : State) (f : Word)

theorem State.setReg_withFlags (r : Reg) (v : Word) :
    { s with flags := f }.setReg r v = { s.setReg r v with flags := f } := by
  cases r <;> rfl

theorem fetchInstr_withFlags : fetchInstr { s with flags := f } = fetchInstr s := rfl

theorem haltCheck_withFlags : haltCheck { s with flags := f } = { haltCheck s with flags := f } := by
  by_cases h : s.eip = 0
  · rw [haltCheck_of_zero s h, haltCheck_of_zero { s with flags := f } h]
  · rw [haltCheck_of_ne_zero s h, haltCheck_of_ne_zero { s with flags := f } h]

variable {s}

theorem exec_withFlags {i : Instr} {t : State} (h : exec i s = .next t) :
    exec i { s with flags := f } = .next { t with flags := f } := by
  cases i with
  | movR32Imm32 r imm =>
    cases h
    simp only [exec, execMovR32Imm32, State.setReg_withFlags, State.setEip]
  | jmpRel32 d => cases h; rfl
  | jmpRel8 d => cases h; rfl

theorem step_withFlags {t : State} (h : step s = .next t) :
    step { s with flags := f } = .next { t with flags := f } := by
  obtain ⟨hr, ⟨r, hf, rfl⟩ | ⟨i, u, hf, hx, rfl⟩⟩ := step_next_cases h
  · exact step_eq_error hr ((fetchInstr_withFlags s f).trans hf)
  · have hf' := (fetchInstr_withFlags s f).trans hf
    rw [step_eq_ok (s := { s with flags := f }) hr hf', exec_withFlags f hx, afterHandler, haltCheck_withFlags]

theorem runFor_withFlags (n : Nat) : runFor n { s with flags := f } = { runFor n s with flags := f } := by
  induction n generalizing s with
  | zero => rfl
  | succ n ih =>
    by_cases hr : s.runState = .running
    · obtain ⟨t, ht⟩ := step_running hr
      rw [runFor_succ ht, runFor_succ (step_withFlags f ht), ih]
    · rw [runFor_stopped hr, runFor_stopped (s := { s with flags := f }) hr]

end flags

/-- Settles O29: a run commutes with putting a pattern in `flags`; put in the pattern that already stands there, and
the run from the same state is seen to end with it. -/
theorem flagsAreOpaqueThroughAnyRun : Obligations.FlagsAreOpaqueThroughAnyRun := by
  intro n s f
  have run_same : runFor n s = { runFor n s with flags := s.flags } := runFor_withFlags (s := s) s.flags n
  exact ⟨runFor_withFlags f n, by rw [run_same]⟩

/-! ### The launch values -/

/-- A step in RUNNING with `eip` at or above `MEM_SIZE` records `eip` (40_fetch_decode_dispatch.md R75). -/
theorem step_beyond {s : State} (hr : s.runState = .running) (h : Config.memSize ≤ s.eip.toNat) :
    step s = .next (raise (.outOfBoundsAccess s.eip) s) :=
  step_eq_error hr (fetchInstr_beyond h)

/-- Settles O25: reset writes the launch values as they are; an `INIT_EIP` beyond memory is caught by the bounds check
of the first step. -/
theorem resetTakesTheHostsLaunchValues : Obligations.ResetTakesTheHostsLaunchValues := by
  intro initEip initEsp
  refine ⟨State.resetAt_eip _ _, rfl, State.resetAt_runState _ _, fun h => ?_⟩
  exact ⟨_, step_beyond (State.resetAt_runState _ _) h, raise_runState _ _, raise_fault _ _⟩

end Sys2Proof.Machine
end

section
/-! PROOF. The general statements of 20_memory.md: `MemWrite` (R34). -/

namespace Sys2Proof.Machine

section setBytes
variable {m : Memory} {a n : Nat}

/-- The frame of a write: addresses outside its range read as before. -/
theorem Memory.byteAt_setBytes_outside (hm : m.wf = true) {bs : List Byte} (h : a + bs.length ≤ Config.memSize)
    {a' : Nat} (ha' : a' < a ∨ a + bs.length ≤ a') : (m.setBytes a bs).byteAt a' = m.byteAt a' := by
  rw [Memory.byteAt_setBytes hm (.inr h)]
  rcases ha' with below | above
  · rw [if_neg (by omega)]
  · rw [if_pos (by omega), List.getElem?_eq_none (by omega), Option.getD_none]

/-- Inside the range of a little-endian write, the byte at offset `i` is bits `8i+7:8i` of the value. -/
theorem Memory.byteAt_setBytes_leBytes (hm : m.wf = true) (h : a + n ≤ Config.memSize) (v : Nat) {i : Nat}
    (hi : i < n) : (m.setBytes a (leBytes n v)).byteAt (a + i) = BitVec.ofNat 8 (v / 2 ^ (8 * i)) := by
  have fits : a + (leBytes n v).length ≤ Config.memSize := by rwa [length_leBytes]
  rw [Memory.byteAt_setBytes hm (.inr fits), if_pos (Nat.le_add_right a i), Nat.add_sub_cancel_left,
    getElem?_leBytes v hi, Option.getD_some]

end setBytes

theorem exec_mem {i : Instr} {s t : State} (h : exec i s = .next t) : t.mem = s.mem := by
  obtain ⟨u, hu, -, hmem, -⟩ := exec_next i s
  cases hu.symm.trans h
  exact hmem

/-- Settles O35: in bounds `MemWrite` is one store of the value's little-endian bytes, whose content and frame are the
read-after-write rules; out of bounds its checks fail first; every handler leaves memory as it was. -/
theorem memWriteStoresLittleEndianBytes : Obligations.MemWriteStoresLittleEndianBytes := by
  refine ⟨fun m addr n v hm => ⟨fun inBounds => ?_, memWrite_eq_error⟩, fun _ _ _ => exec_mem⟩
  have fits : addr + (leBytes n v).length ≤ Config.memSize := by rwa [length_leBytes]
  refine ⟨m.setBytes addr (leBytes n v), memWrite_eq_ok inBounds, Memory.wf_setBytes hm (.inr fits), ?_, ?_⟩
  · intro i hi
    rw [Memory.byteAt_setBytes_leBytes hm inBounds v hi, BitVec.toNat_ofNat]
  · intro a outside
    exact Memory.byteAt_setBytes_outside hm fits (by rwa [length_leBytes])

end Sys2Proof.Machine
end

section
/-! PROOF. The general statements of 30_encoding.md: what the opcode byte alone determines (R62). -/

namespace Sys2Proof

/-! ### The encoding of a fetched instruction -/

/-- An instruction's encoding has as many bytes as its handler says. -/
theorem length_encode (i : Instr) : (encode i).length = i.handler.length := by
  obtain ⟨opcode, operand, henc, -, hlen⟩ := Laws.EncodedShape.all i
  rw [henc, List.length_cons, hlen, Handler.length, Nat.add_comm]

theorem Handler.length_eq (h : Handler) : h.length = if h = .jmpRel8 then 2 else 5 := by
  cases h <;> rfl

/-- The encoding of an instruction starts with the opcode byte it was made from. -/
theorem head?_encode_instr {b : Byte} {h : Handler} (hd : dispatch b = some h) (v : Nat) :
    (encode (h.instr b v)).head? = some b := by
  cases h with
  | movR32Imm32 => exact congrArg some (movOpcode_of_dispatch hd)
  | jmpRel32 =>
    have hb : b = 0xE9#8 := by simpa using dispatch_eq_some.mp hd
    exact congrArg some hb.symm
  | jmpRel8 =>
    have hb : b = 0xEB#8 := by simpa using dispatch_eq_some.mp hd
    exact congrArg some hb.symm

end Sys2Proof

namespace Sys2Proof.Machine

variable {s : State} {h : Handler}

/-- A byte with a handler is fetched exactly where the instruction fits, as that handler's instruction. -/
theorem fetchInstr_eq_ok_iff (inMem : s.eip.toNat < Config.memSize)
    (hd : dispatch (s.mem.byteAt s.eip.toNat) = some h) {i : Instr} :
    fetchInstr s = .ok i ↔ s.eip.toNat + h.length ≤ Config.memSize ∧
      i = h.instr (s.mem.byteAt s.eip.toNat) (leNat (s.mem.bytesAt (s.eip.toNat + 1) h.operandBytes)) := by
  rw [fetchInstr_handled inMem hd, Handler.length, ← Nat.add_assoc]
  by_cases fits : s.eip.toNat + 1 + h.operandBytes ≤ Config.memSize
  · simp [fetchOperands_eq_ok fits, fits, eq_comm]
  · simp [fetchOperands_eq_error inMem (Nat.lt_of_not_le fits), fits]

/-- Settles O7: by the dispatch of the byte at `eip`. Without a handler the fetch faults; with one, what is fetched is
that handler's instruction of that byte, whose encoding begins with the byte and has the handler's length. -/
theorem opcodeByteAloneSelectsTheInstruction : Obligations.OpcodeByteAloneSelectsTheInstruction := by
  intro s inMem
  cases hd : dispatch (s.mem.byteAt s.eip.toNat) with
  | none => exact .inl ⟨rfl, fetchInstr_unimplemented inMem hd⟩
  | some h =>
    refine .inr ⟨h, rfl, fun i fetched => ?_, fun fits => ⟨_, (fetchInstr_eq_ok_iff inMem hd).mpr ⟨fits, rfl⟩⟩⟩
    obtain ⟨-, rfl⟩ := (fetchInstr_eq_ok_iff inMem hd).mp fetched
    refine ⟨Handler.handler_instr .., head?_encode_instr hd _, ?_⟩
    rw [length_encode, Handler.handler_instr, Handler.length_eq]

end Sys2Proof.Machine
end

section
/-! PROOF. The general statements of 40_fetch_decode_dispatch.md: the dispatch table (R69), `rel8` in the adder (R73),
the halt check (R79), opcodes without a handler (R77) and the fetch primitives (R65 to R67). -/

namespace Sys2Proof

/-! ### The dispatch table -/

/-- Bits 7 to 3 of a byte are the constant field of the MOV opcode exactly on its eight opcode bytes. -/
theorem extractLsb'_eq_movField_iff (b : Byte) :
    b.extractLsb' 3 5 = 0b10111#5 ↔ 0xB8 ≤ b.toNat ∧ b.toNat ≤ 0xBF := by
  have field : (b.extractLsb' 3 5).toNat = b.toNat / 8 % 32 := by
    rw [BitVec.extractLsb'_toNat, Nat.shiftRight_eq_div_pow]
  have hb := b.isLt
  rw [← BitVec.toNat_inj, field, BitVec.toNat_ofNat]
  omega

/-- The dispatch table as R69 writes it, by bit field and opcode byte. -/
theorem dispatch_eq_ite (b : Byte) : dispatch b =
    if b.extractLsb' 3 5 = 0b10111#5 then some .movR32Imm32
    else if b = 0xE9#8 then some .jmpRel32
    else if b = 0xEB#8 then some .jmpRel8
    else none := by
  simp only [dispatch, extractLsb'_eq_movField_iff]
  simp only [← BitVec.toNat_inj, BitVec.toNat_ofNat, Nat.reducePow, Nat.reduceMod]

/-- The opcode bytes that have a handler, in ascending order. -/
theorem filter_dispatch_ne_none :
    ((List.range Config.nOpcode).filter fun n => dispatch (BitVec.ofNat 8 n) ≠ none) =
      [0xB8, 0xB9, 0xBA, 0xBB, 0xBC, 0xBD, 0xBE, 0xBF, 0xE9, 0xEB] := by
  decide

/-- Settles O2: the table's range test is a test of bits 7 to 3; the ten handled bytes are listed, and the other
entries are the rest of the 256. -/
theorem dispatchTableInstallsTenHandlers : Obligations.DispatchTableInstallsTenHandlers := by
  have handled := congrArg List.length filter_dispatch_ne_none
  have total := List.length_eq_length_filter_add (l := List.range Config.nOpcode)
    fun n => decide (dispatch (BitVec.ofNat 8 n) = none)
  refine ⟨dispatch_eq_ite, ?_, handled⟩
  simp only [ne_eq, decide_not, List.length_cons, List.length_nil] at handled
  rw [List.length_range, handled] at total
  have entries : Config.nOpcode = 256 := rfl
  omega

/-! ### The sign-extended displacement -/

theorem sext32_toNat_of_lt {b : Byte} (h : b.toNat < 0x80) : (sext32 b).toNat = b.toNat := by
  rw [sext32, if_pos h, BitVec.toNat_ofNat]
  omega

theorem sext32_toNat_of_le {b : Byte} (h : 0x80 ≤ b.toNat) : (sext32 b).toNat = b.toNat + 0xFFFFFF00 := by
  have hb := b.isLt
  rw [sext32, if_neg (by omega), BitVec.toNat_ofNat]
  omega

/-- Sign extension is the signed integer modulo 2^32. -/
theorem ofInt_signed8_eq_sext32 (b : Byte) : BitVec.ofInt 32 (signed8 b) = sext32 b := by
  rw [signed8_eq_toInt, sext32_eq_signExtend, BitVec.signExtend]

/-! ### Injectivity of the signed readings -/

theorem signed32_injective : Function.Injective signed32 :=
  Function.LeftInverse.injective ofInt_signed32

/-! ### `Except.map` -/

section map
variable {ε α β : Type} {f : α → β} {x : Except ε α}

theorem exceptMap_eq_error_iff {r : ε} : x.map f = .error r ↔ x = .error r := by
  cases x <;> simp [Except.map]

theorem exceptMap_eq_ok_iff (hf : Function.Injective f) {v : α} : x.map f = .ok (f v) ↔ x = .ok v := by
  cases x <;> simp [Except.map, hf.eq_iff]

end map

end Sys2Proof

namespace Sys2Proof.Machine

/-! ### `eip` after a handler -/

/-- The adder takes the sign extension of `rel8` or its signed value alike. -/
theorem add32_sext32 (a : Word) (b : Byte) : add32 a (sext32 b).toNat = add32 a (signed8 b) := by
  rw [add32_natCast, add32_eq_add, ofInt_signed8_eq_sext32, BitVec.ofNat_toNat, BitVec.setWidth_eq]

theorem State.jumpRelative_eip_eq_add (s : State) (d : Int) (n : Nat) :
    (s.jumpRelative d n).eip = s.eip + BitVec.ofInt 32 d + BitVec.ofNat 32 n := by
  rw [State.jumpRelative_eip, add32_natCast, add32_eq_add]

/-- Settles O14: the two ranges of `sext_32`, and the adder's sum for each of the three operands. -/
theorem shortDisplacementEntersSignExtended : Obligations.ShortDisplacementEntersSignExtended := by
  refine ⟨fun b => ⟨sext32_toNat_of_lt, sext32_toNat_of_le⟩, add32_sext32, fun s b => ⟨_, rfl, ?_⟩,
    fun s v => ⟨_, rfl, ?_⟩, fun s r v => ⟨_, rfl, ?_⟩⟩
  · rw [State.jumpRelative_eip_eq_add, ofInt_signed8_eq_sext32]
    rfl
  · rw [State.jumpRelative_eip_eq_add, ofInt_signed32]
    rfl
  · rw [State.setEip_reg, State.reg_setReg_same]

/-- A MOV in memory never leaves `eip` at 0: its sum is far below 2^32. -/
theorem eip_ne_zero_of_exec_mov {s t : State} {r : Reg} {imm : Word} (inMem : s.eip.toNat < Config.memSize)
    (h : exec (.movR32Imm32 r imm) s = .next t) : t.eip ≠ 0 := by
  cases h
  have sum := add32_toNat s.eip 5
  intro zero
  rw [State.setEip_eip] at zero
  rw [zero, show (0 : Word).toNat = 0 from rfl] at sum
  rw [Config.memSize] at inMem
  omega

/-! ### What the fetch of an instruction can answer -/

section fetchInstr
variable {s : State}

/-- What a fetched instruction shows: `eip` in memory and an opcode byte of its own handler. -/
theorem dispatch_of_fetchInstr_eq_ok {i : Instr} (h : fetchInstr s = .ok i) :
    s.eip.toNat < Config.memSize ∧ dispatch (s.mem.byteAt s.eip.toNat) = some i.handler := by
  rcases Nat.lt_or_ge s.eip.toNat Config.memSize with inMem | beyond
  · cases hd : dispatch (s.mem.byteAt s.eip.toNat) with
    | none => simp [fetchInstr_unimplemented inMem hd] at h
    | some hh =>
      obtain ⟨-, rfl⟩ := (fetchInstr_eq_ok_iff inMem hd).mp h
      exact ⟨inMem, by rw [Handler.handler_instr]⟩
  · simp [fetchInstr_beyond beyond] at h

/-- The fetch raises `UnimplementedOpcode` in one case only, with the byte and `eip` as its record. -/
theorem fetchInstr_eq_unimplementedOpcode_iff {opcode : Byte} {address : Word} :
    fetchInstr s = .error (.unimplementedOpcode opcode address) ↔
      s.eip.toNat < Config.memSize ∧ dispatch (s.mem.byteAt s.eip.toNat) = none ∧
        opcode = s.mem.byteAt s.eip.toNat ∧ address = s.eip := by
  rcases Nat.lt_or_ge s.eip.toNat Config.memSize with inMem | beyond
  · cases hd : dispatch (s.mem.byteAt s.eip.toNat) with
    | none => simp [fetchInstr_unimplemented inMem hd, inMem, eq_comm]
    | some hh =>
      rw [fetchInstr_handled inMem hd]
      rcases Nat.lt_or_ge Config.memSize (s.eip.toNat + 1 + hh.operandBytes) with cut | fits
      · simp [fetchOperands_eq_error inMem cut, outOfBoundsAt]
      · simp [fetchOperands_eq_ok fits]
  · simp [fetchInstr_beyond beyond, Nat.not_lt.mpr beyond]

end fetchInstr

/-! ### The halt check -/

theorem haltCheck_runState (s : State) :
    (haltCheck s).runState = if s.eip = 0 then .halted else s.runState := by
  by_cases zero : s.eip = 0
  · rw [haltCheck_of_zero s zero, if_pos zero]
  · rw [haltCheck_of_ne_zero s zero, if_neg zero]

/-- The part of a handler's frame that the halt check and the fault record rest on. -/
theorem exec_runState_fault {i : Instr} {s t : State} (h : exec i s = .next t) :
    t.runState = s.runState ∧ t.fault = s.fault := by
  obtain ⟨u, hu, -, -, hrun, hfault⟩ := exec_next i s
  cases hu.symm.trans h
  exact ⟨hrun, hfault⟩

/-- After a handler the step is the halt check of the handler's state. -/
theorem step_eq_haltCheck {s u : State} {i : Instr} (hr : s.runState = .running) (hf : fetchInstr s = .ok i)
    (hx : exec i s = .next u) : step s = .next (haltCheck u) := by
  rw [step_eq_ok hr hf, hx, afterHandler]

theorem FaultRecord.runState_ne_halted (r : FaultRecord) : r.runState ≠ .halted := by
  cases r <;> simp [FaultRecord.runState]

/-- A state in RUNNING that meets the invariant has no fault recorded. -/
theorem State.fault_of_inv_running {s : State} (hi : s.inv = true) (hr : s.runState = .running) :
    s.fault = none := by
  cases hf : s.fault with
  | none => rfl
  | some r => simp [State.inv, State.coherent, hr, hf] at hi

/-- A step into HALTED ran a handler that left `eip` at 0. -/
theorem handler_of_step_halted {s t : State} (h : step s = .next t) (halted : t.runState = .halted) :
    s.runState = .running ∧ ∃ i u, fetchInstr s = .ok i ∧ exec i s = .next u ∧ u.eip = 0 ∧ t = haltCheck u := by
  obtain ⟨hr, ⟨r, -, rfl⟩ | ⟨i, u, hf, hx, rfl⟩⟩ := step_next_cases h
  · exact absurd halted r.runState_ne_halted
  · refine ⟨hr, i, u, hf, hx, ?_, rfl⟩
    by_contra nonzero
    rw [haltCheck_of_ne_zero u nonzero, (exec_runState_fault hx).1, hr] at halted
    contradiction

/-- A handler that leaves `eip` at 0 is a jump's. -/
theorem jumpOpcode_of_exec_eip_zero {s u : State} {i : Instr} (hf : fetchInstr s = .ok i) (hx : exec i s = .next u)
    (zero : u.eip = 0) : s.mem.byteAt s.eip.toNat = 0xE9 ∨ s.mem.byteAt s.eip.toNat = 0xEB := by
  obtain ⟨inMem, hd⟩ := dispatch_of_fetchInstr_eq_ok hf
  cases i with
  | movR32Imm32 r imm => exact absurd zero (eip_ne_zero_of_exec_mov inMem hx)
  | jmpRel32 d => exact .inl (by simpa [Instr.handler] using dispatch_eq_some.mp hd)
  | jmpRel8 d => exact .inr (by simpa [Instr.handler] using dispatch_eq_some.mp hd)

/-- Settles O17: after a handler the step is the halt check; a step into HALTED is traced back to its handler, which
kept the fault of the state before and was a jump. -/
theorem haltCheckFollowsEveryHandler : Obligations.HaltCheckFollowsEveryHandler := by
  refine ⟨fun s u i hr hf hx => ⟨fun zero => ?_, fun nonzero => ?_⟩, fun s t hi hs halted => ?_,
    fun p => State.resetAt_runState 0 p⟩
  · rw [step_eq_haltCheck hr hf hx, haltCheck_of_zero u zero]
  · rw [step_eq_haltCheck hr hf hx, haltCheck_of_ne_zero u nonzero]
  · obtain ⟨hr, i, u, hf, hx, zero, rfl⟩ := handler_of_step_halted hs halted
    refine ⟨(haltCheck_eip u).trans zero, ?_, jumpOpcode_of_exec_eip_zero hf hx zero⟩
    rw [haltCheck_fault, (exec_runState_fault hx).2, State.fault_of_inv_running hi hr]

/-! ### Opcodes without a handler -/

/-- A step into UNIMPLEMENTED raised the record of an opcode without a handler. -/
theorem fetchInstr_of_step_unimplemented {s t : State} (h : step s = .next t)
    (stopped : t.runState = .unimplemented) :
    ∃ opcode address, fetchInstr s = .error (.unimplementedOpcode opcode address) := by
  obtain ⟨hr, ⟨r, hf, rfl⟩ | ⟨i, u, -, hx, rfl⟩⟩ := step_next_cases h
  · cases r with
    | unimplementedOpcode opcode address => exact ⟨opcode, address, hf⟩
    | outOfBoundsAccess offset => simp [FaultRecord.runState] at stopped
  · rw [haltCheck_runState, (exec_runState_fault hx).1, hr] at stopped
    split at stopped <;> contradiction

/-- Settles O18: the fetch raises the record of the byte at `eip`, and no other path of a step ends in
UNIMPLEMENTED. -/
theorem unimplementedOpcodeStopsTheRun : Obligations.UnimplementedOpcodeStopsTheRun := by
  intro s hr
  refine ⟨fun inMem hd => step_eq_error hr (fetchInstr_unimplemented inMem hd), fun t hs stopped => ?_⟩
  obtain ⟨opcode, address, hf⟩ := fetchInstr_of_step_unimplemented hs stopped
  obtain ⟨inMem, hd, -⟩ := fetchInstr_eq_unimplementedOpcode_iff.mp hf
  exact ⟨inMem, hd⟩

/-! ### The fetch primitives -/

/-- A byte of a range is its eight bits of the little-endian number the range reads as. -/
theorem Memory.byteAt_eq_leNat_bytesAt (m : Memory) (a n : Nat) {i : Nat} (hi : i < n) :
    m.byteAt (a + i) = BitVec.ofNat 8 (leNat (m.bytesAt a n) / 2 ^ (8 * i)) := by
  have written := getElem?_leBytes (leNat (m.bytesAt a n)) hi
  have bytes := leBytes_leNat (m.bytesAt a n)
  rw [Memory.length_bytesAt] at bytes
  rw [bytes, List.getElem?_eq_getElem (by rwa [Memory.length_bytesAt]), Memory.getElem_bytesAt] at written
  exact Option.some.inj written

/-- Bits `8i+7:8i` of the word at `a` are the byte at `a + i` (40_fetch_decode_dispatch.md R67). -/
theorem Memory.extractLsb'_wordAt (m : Memory) (a : Nat) {i : Nat} (hi : i < 4) :
    (m.wordAt a).extractLsb' (8 * i) 8 = m.byteAt (a + i) := by
  have fits : leNat (m.bytesAt a 4) < 2 ^ 32 := by
    simpa using leNat_lt (m.bytesAt a 4)
  rw [Memory.byteAt_eq_leNat_bytesAt m a 4 hi, Memory.wordAt_eq]
  apply BitVec.eq_of_toNat_eq
  rw [BitVec.extractLsb'_toNat, BitVec.toNat_ofNat, BitVec.toNat_ofNat, Nat.mod_eq_of_lt fits,
    Nat.shiftRight_eq_div_pow]

section fetch
variable {s : State} {o : Nat}

theorem fetchOpcode_eq_fetchU8 (h : s.eip.toNat < Config.memSize) : fetchOpcode s = fetchU8 s 0 := by
  rw [fetchOpcode_eq_ok h, fetchU8_eq_ok (o := 0) h, Nat.add_zero]

theorem fetchU8_eq_error (h : Config.memSize ≤ s.eip.toNat + o) :
    fetchU8 s o = .error (outOfBoundsAt (s.eip.toNat + o)) := by
  rw [fetchU8, fetchRaw_eq_error Nat.one_pos (by omega), Nat.max_eq_left h]
  rfl

theorem fetchI8_eq_ok (h : s.eip.toNat + o < Config.memSize) :
    fetchI8 s o = .ok (s.mem.byteAt (s.eip.toNat + o)).toInt := by
  rw [fetchI8, fetchU8_eq_ok h, ← signed8_eq_toInt]
  rfl

theorem fetchI8_eq_error (h : Config.memSize ≤ s.eip.toNat + o) :
    fetchI8 s o = .error (outOfBoundsAt (s.eip.toNat + o)) := by
  rw [fetchI8, exceptMap_eq_error_iff, fetchU8_eq_error h]

theorem fetchU32le_eq_ok (h : s.eip.toNat + o + 3 < Config.memSize) :
    fetchU32le s o = .ok (s.mem.wordAt (s.eip.toNat + o)) := by
  rw [fetchU32le, fetchRaw_eq_ok (by omega), Memory.wordAt_eq]
  rfl

theorem fetchU32le_eq_error (h : Config.memSize ≤ s.eip.toNat + o + 3) :
    fetchU32le s o = .error (outOfBoundsAt (max (s.eip.toNat + o) Config.memSize)) := by
  rw [fetchU32le, exceptMap_eq_error_iff, fetchRaw_eq_error (by decide) (by omega)]

end fetch

/-- Settles O37: each operand fetch is its primitive under an injective reading, so results and errors correspond; each
primitive's value and fault are those of the memory read at `eip + o`. -/
theorem fetchPrimitivesReadAtTheInstructionPointer : Obligations.FetchPrimitivesReadAtTheInstructionPointer := by
  refine ⟨fun s opcode => ⟨fetchOpcode_eq_fetchU8, fun d => ?_, fun v => ?_, fun v => ?_, fun r => ?_⟩,
    fun s o => ⟨fun h => ⟨fetchU8_eq_ok h, fetchI8_eq_ok h⟩, fun h _ => ⟨fetchU8_eq_error h, fetchI8_eq_error h⟩,
      fun h => ⟨fetchU32le_eq_ok h, fun i hi => Memory.extractLsb'_wordAt s.mem _ hi⟩,
      fun h _ => fetchU32le_eq_error h⟩⟩
  · exact exceptMap_eq_ok_iff fun _ _ => Instr.jmpRel8.inj
  · exact exceptMap_eq_ok_iff (f := Instr.movR32Imm32 (regOfOpcode opcode)) fun _ _ h => (Instr.movR32Imm32.inj h).2
  · exact exceptMap_eq_ok_iff (f := fun v => Instr.jmpRel32 (signed32 v))
      fun _ _ h => signed32_injective (Instr.jmpRel32.inj h)
  · exact ⟨exceptMap_eq_error_iff, exceptMap_eq_error_iff, exceptMap_eq_error_iff⟩

end Sys2Proof.Machine
end

section
/-! PROOF. The general statements of 41_mov_r32_imm32.md: a whole step at a MOV opcode byte (R85). -/

namespace Sys2Proof.Machine

/-! ### The operands of a MOV -/

/-- On the MOV opcode bytes the register field is the distance from 0xB8, the first of them. -/
theorem regOfOpcode_eq_ofIndex_sub {b : Byte} (low : 0xB8 ≤ b.toNat) (high : b.toNat ≤ 0xBF) :
    regOfOpcode b = Reg.ofIndex (b.toNat - 0xB8) := by
  rw [regOfOpcode, show b.toNat % 8 = b.toNat - 0xB8 by omega]

theorem dispatch_of_movRange {b : Byte} (low : 0xB8 ≤ b.toNat) (high : b.toNat ≤ 0xBF) :
    dispatch b = some .movR32Imm32 :=
  dispatch_eq_some.mpr (.inl ⟨rfl, low, high⟩)

section step
variable {s : State}

/-- An immediate in memory is fetched as the word the spec writes. -/
theorem fetchInstr_mov (hd : dispatch (s.mem.byteAt s.eip.toNat) = some .movR32Imm32)
    (fits : s.eip.toNat + 4 < Config.memSize) :
    fetchInstr s =
      .ok (.movR32Imm32 (regOfOpcode (s.mem.byteAt s.eip.toNat)) (s.mem.wordAt (s.eip.toNat + 1))) := by
  rw [fetchInstr_handled (by omega) hd, fetchOperands, fetchU32le_eq_ok (by omega)]
  rfl

/-! ### The step -/

/-- A handled opcode whose operand does not fit below `MEM_SIZE`: the step records `MEM_SIZE` and changes nothing
else (40_fetch_decode_dispatch.md R78, 60_exceptions.md R97). -/
theorem step_operand_beyond {h : Handler} (hr : s.runState = .running) (inMem : s.eip.toNat < Config.memSize)
    (hd : dispatch (s.mem.byteAt s.eip.toNat) = some h) (cut : Config.memSize < s.eip.toNat + 1 + h.operandBytes) :
    step s = .next (raise (outOfBoundsAt Config.memSize) s) :=
  step_eq_error hr ((fetchInstr_handled inMem hd).trans (fetchOperands_eq_error inMem cut))

/-- The length of a MOV takes an `eip` in memory on without wrapping. -/
theorem add32_five_toNat (inMem : s.eip.toNat < Config.memSize) : (add32 s.eip 5).toNat = s.eip.toNat + 5 := by
  have sum := add32_toNat s.eip 5
  rw [Config.memSize] at inMem
  omega

/-- A MOV that fits is the handler's effect and nothing more: `eip` is past 0, so the halt check keeps it. -/
theorem step_mov (hr : s.runState = .running) (hd : dispatch (s.mem.byteAt s.eip.toNat) = some .movR32Imm32)
    (fits : s.eip.toNat + 4 < Config.memSize) :
    step s = .next ((s.setReg (regOfOpcode (s.mem.byteAt s.eip.toNat)) (s.mem.wordAt (s.eip.toNat + 1))).setEip
      (add32 s.eip 5)) := by
  have nonzero := eip_ne_zero_of_exec_mov (s := s) (r := regOfOpcode (s.mem.byteAt s.eip.toNat))
    (imm := s.mem.wordAt (s.eip.toNat + 1)) (by omega) rfl
  rw [step_eq_haltCheck hr (fetchInstr_mov hd fits) rfl, haltCheck_of_ne_zero _ nonzero]

end step

/-- Settles O11: where the immediate fits the step is the handler's write, and the frame is that of its two
assignments; ending at `MEM_SIZE` it leaves an `eip` that the next step's bounds check catches. Where the immediate does
not fit, its fetch faults before the first write. -/
theorem stepOfMovLoadsTheImmediate : Obligations.StepOfMovLoadsTheImmediate := by
  intro s hr inMem low high
  have hd := dispatch_of_movRange low high
  refine ⟨fun fits => ⟨_, step_mov hr hd fits, ?_⟩, fun cut => ?_⟩
  · rw [regOfOpcode_eq_ofIndex_sub low high]
    generalize Reg.ofIndex _ = r
    have eip_next := add32_five_toNat inMem
    refine ⟨?_, fun q hq => ?_, eip_next, by simp, by simp, by simpa using hr, by simp, fun ends => ?_⟩
    · rw [State.setEip_reg, State.reg_setReg_same]
    · rw [State.setEip_reg, State.reg_setReg_ne s _ hq]
    · have eip_end : add32 s.eip 5 = BitVec.ofNat 32 Config.memSize := by
        rw [← ends, ← eip_next, BitVec.ofNat_toNat, BitVec.setWidth_eq]
      rw [← eip_end]
      exact step_beyond (by simpa using hr) (eip_next.trans ends).ge
  · exact step_operand_beyond hr inMem hd (by rw [Handler.operandBytes]; omega)

end Sys2Proof.Machine
end

section
/-! PROOF. The general statements of 42_jmp_rel.md: a whole step at a short jump's opcode byte (R86) and at a near
jump's (R87). -/

namespace Sys2Proof.Machine

/-! ### The target -/

/-- The two sums of a jump are one integer sum modulo 2^32. -/
theorem State.jumpRelative_eip_toNat (s : State) (d : Int) (n : Nat) :
    ((s.jumpRelative d n).eip.toNat : Int) = ((s.eip.toNat : Int) + d + n) % 4294967296 := by
  rw [State.jumpRelative_eip, add32_add32, add32_toNat, Int.add_assoc]

/-- A `rel8` enters the target sign-extended. -/
theorem State.jumpRelative_signed8_eip (s : State) (b : Byte) (n : Nat) :
    (s.jumpRelative (signed8 b) n).eip = s.eip + sext32 b + BitVec.ofNat 32 n := by
  rw [State.jumpRelative_eip_eq_add, ofInt_signed8_eq_sext32]

/-- A `rel32` enters the target unchanged: the signed and the unsigned reading agree modulo 2^32. -/
theorem State.jumpRelative_signed32_eip (s : State) (v : Word) (n : Nat) :
    (s.jumpRelative (signed32 v) n).eip = s.eip + v + BitVec.ofNat 32 n := by
  rw [State.jumpRelative_eip_eq_add, ofInt_signed32]

/-- The displacement word `target - eip - length` reaches `target`. -/
theorem add_displacement_eq_target (eip target length : Word) : eip + (target - eip - length) + length = target := by
  abel

/-! ### After the halt check -/

section haltCheck
variable {u : State}

theorem haltCheck_runState_of_eip_eq_zero (zero : (haltCheck u).eip = 0) : (haltCheck u).runState = .halted := by
  rw [haltCheck_eip] at zero
  rw [haltCheck_runState, if_pos zero]

theorem haltCheck_runState_of_eip_ne_zero (nonzero : (haltCheck u).eip ≠ 0) :
    (haltCheck u).runState = u.runState := by
  rw [haltCheck_eip] at nonzero
  rw [haltCheck_runState, if_neg nonzero]

/-- A handler may leave `eip` beyond memory: the halt check lets it pass and the next step's bounds check catches it. -/
theorem step_haltCheck_beyond (hr : u.runState = .running) (beyond : Config.memSize ≤ (haltCheck u).eip.toNat) :
    step (haltCheck u) = .next (raise (.outOfBoundsAccess (haltCheck u).eip) (haltCheck u)) := by
  have nonzero : (haltCheck u).eip ≠ 0 := by
    intro zero
    rw [zero] at beyond
    exact absurd beyond (by decide)
  exact step_beyond ((haltCheck_runState_of_eip_ne_zero nonzero).trans hr) beyond

end haltCheck

/-! ### The step -/

section step
variable {s : State}

/-- A `rel8` in memory is fetched as the signed byte after the opcode. -/
theorem fetchInstr_jmpRel8 (hd : dispatch (s.mem.byteAt s.eip.toNat) = some .jmpRel8)
    (fits : s.eip.toNat + 1 < Config.memSize) :
    fetchInstr s = .ok (.jmpRel8 (signed8 (s.mem.byteAt (s.eip.toNat + 1)))) := by
  rw [fetchInstr_handled (by omega) hd, fetchOperands, fetchI8, fetchU8_eq_ok fits]
  rfl

/-- A `rel32` in memory is fetched as the signed word after the opcode. -/
theorem fetchInstr_jmpRel32 (hd : dispatch (s.mem.byteAt s.eip.toNat) = some .jmpRel32)
    (fits : s.eip.toNat + 4 < Config.memSize) :
    fetchInstr s = .ok (.jmpRel32 (signed32 (s.mem.wordAt (s.eip.toNat + 1)))) := by
  rw [fetchInstr_handled (by omega) hd, fetchOperands, fetchU32le_eq_ok (by omega)]
  rfl

theorem step_jmpRel8 (hr : s.runState = .running) (hd : dispatch (s.mem.byteAt s.eip.toNat) = some .jmpRel8)
    (fits : s.eip.toNat + 1 < Config.memSize) :
    step s = .next (haltCheck (s.jumpRelative (signed8 (s.mem.byteAt (s.eip.toNat + 1))) 2)) :=
  step_eq_haltCheck hr (fetchInstr_jmpRel8 hd fits) rfl

theorem step_jmpRel32 (hr : s.runState = .running) (hd : dispatch (s.mem.byteAt s.eip.toNat) = some .jmpRel32)
    (fits : s.eip.toNat + 4 < Config.memSize) :
    step s = .next (haltCheck (s.jumpRelative (signed32 (s.mem.wordAt (s.eip.toNat + 1))) 5)) :=
  step_eq_haltCheck hr (fetchInstr_jmpRel32 hd fits) rfl

end step

/-! ### A completed jump

What R86 and R87 say alike of the state after a jump, whatever its displacement and length. -/

section completed
variable (s : State) (d : Int) (n : Nat)

theorem haltCheck_jumpRelative_eip_toNat :
    ((haltCheck (s.jumpRelative d n)).eip.toNat : Int) = ((s.eip.toNat : Int) + d + n) % 4294967296 := by
  rw [haltCheck_eip, State.jumpRelative_eip_toNat]

/-- The frame of a jump: nothing but `eip` and `run_state` is written. -/
theorem haltCheck_jumpRelative_frame :
    (∀ q, (haltCheck (s.jumpRelative d n)).reg q = s.reg q) ∧ (haltCheck (s.jumpRelative d n)).flags = s.flags ∧
      (haltCheck (s.jumpRelative d n)).mem = s.mem ∧ (haltCheck (s.jumpRelative d n)).fault = s.fault := by
  simp

variable {s d n}

theorem haltCheck_jumpRelative_running (hr : s.runState = .running)
    (nonzero : (haltCheck (s.jumpRelative d n)).eip ≠ 0) : (haltCheck (s.jumpRelative d n)).runState = .running :=
  (haltCheck_runState_of_eip_ne_zero nonzero).trans hr

end completed

/-- Settles O12: where the displacement byte fits the step is the jump and its halt check, the byte entering the sum
sign-extended; a target beyond memory is left to the next step. At the last address the operand fetch faults. -/
theorem stepOfShortJumpGoesToItsTarget : Obligations.StepOfShortJumpGoesToItsTarget := by
  intro s hr inMem opcode
  have hd : dispatch (s.mem.byteAt s.eip.toNat) = some .jmpRel8 := by rw [opcode]; rfl
  refine ⟨fun fits => ⟨_, step_jmpRel8 hr hd fits, ?_⟩, fun cut => ?_⟩
  · obtain ⟨regs, flags, mem, fault⟩ := haltCheck_jumpRelative_frame s (signed8 (s.mem.byteAt (s.eip.toNat + 1))) 2
    refine ⟨?_, ?_, regs, flags, mem, fault, haltCheck_runState_of_eip_eq_zero, haltCheck_jumpRelative_running hr,
      step_haltCheck_beyond hr⟩
    · exact (haltCheck_eip _).trans (s.jumpRelative_signed8_eip _ 2)
    · rw [← signed8_eq_toInt]
      exact haltCheck_jumpRelative_eip_toNat s _ 2
  · exact step_operand_beyond hr inMem hd (by rw [Handler.operandBytes]; omega)

/-- Settles O13: as O12, with a word that enters the sum unchanged; solving that sum for the word reaches any
target. -/
theorem stepOfNearJumpGoesToItsTarget : Obligations.StepOfNearJumpGoesToItsTarget := by
  intro s hr inMem opcode
  have hd : dispatch (s.mem.byteAt s.eip.toNat) = some .jmpRel32 := by rw [opcode]; rfl
  refine ⟨fun fits => ⟨_, step_jmpRel32 hr hd fits, ?_⟩, fun cut => ?_⟩
  · have sum := (haltCheck_eip _).trans (s.jumpRelative_signed32_eip (s.mem.wordAt (s.eip.toNat + 1)) 5)
    obtain ⟨regs, flags, mem, fault⟩ := haltCheck_jumpRelative_frame s (signed32 (s.mem.wordAt (s.eip.toNat + 1))) 5
    refine ⟨sum, ?_, regs, flags, mem, fault, haltCheck_runState_of_eip_eq_zero, haltCheck_jumpRelative_running hr,
      step_haltCheck_beyond hr, fun target _ word => ?_⟩
    · rw [← signed32_eq_toInt]
      exact haltCheck_jumpRelative_eip_toNat s _ 5
    · rw [sum, word]
      exact add_displacement_eq_target s.eip target 5
  · exact step_operand_beyond hr inMem hd (by rw [Handler.operandBytes]; omega)

end Sys2Proof.Machine
end

section
/-! PROOF. The general statements of 60_exceptions.md: the order of a step's conditions (R95), the two places of
`OutOfBoundsAccess` (R92) and what raising a fault writes (R96). -/

namespace Sys2Proof.Machine

/-! ### Raising a fault -/

/-- The state a fault leaves is terminal. -/
theorem FaultRecord.runState_ne_running (r : FaultRecord) : r.runState ≠ .running := by
  cases r <;> simp [FaultRecord.runState]

/-- Settles O22: `raise` is its two assignments, and the run state it writes is one in which no step is defined. -/
theorem raisingAFaultWritesRunStateAndRecordOnly : Obligations.RaisingAFaultWritesRunStateAndRecordOnly := by
  intro s opcode address offset
  refine ⟨rfl, rfl, fun r n => runFor_stopped ?_ n⟩
  rw [raise_runState]
  exact r.runState_ne_running

/-! ### The order of the conditions -/

/-- The bytes of a handler's length at a byte it handles decode to one instruction with nothing left over. -/
theorem decode_bytesAt_handled {m : Memory} {a : Nat} {h : Handler} (hd : dispatch (m.byteAt a) = some h) :
    decode (m.bytesAt a h.length) =
      .ok (h.instr (m.byteAt a) (leNat (m.bytesAt (a + 1) h.operandBytes)), []) := by
  have bytes : m.bytesAt a h.length = m.byteAt a :: m.bytesAt (a + 1) h.operandBytes := by
    rw [Handler.length, Nat.add_comm, Memory.bytesAt]
  have operandLength := Memory.length_bytesAt m (a + 1) h.operandBytes
  rw [bytes, decode_ok hd operandLength.ge, List.take_of_length_le operandLength.le,
    List.drop_of_length_le operandLength.le]

theorem haltCheck_eq_of_running {u : State} (hr : u.runState = .running) :
    haltCheck u = { u with runState := if u.eip = 0 then .halted else .running } := by
  by_cases zero : u.eip = 0
  · rw [haltCheck_of_zero u zero, if_pos zero]
  · rw [haltCheck_of_ne_zero u zero, if_neg zero, ← hr]

/-- Settles O20: along the order of R95 the fetch raises the record of the first condition that holds; where none
does, it answers what the decoder reads, and the step is that handler and the halt check. -/
theorem stepTestsItsConditionsInOrder : Obligations.StepTestsItsConditionsInOrder := by
  intro s hr
  refine ⟨step_beyond hr, fun inMem hd => step_eq_error hr (fetchInstr_unimplemented inMem hd),
    fun h inMem hd => ⟨fun cut => ?_, fun fits => ?_⟩⟩
  · exact step_operand_beyond hr inMem hd (by rwa [Handler.length, ← Nat.add_assoc] at cut)
  · have fetched := (fetchInstr_eq_ok_iff inMem hd).mpr ⟨fits, rfl⟩
    obtain ⟨u, hx, -, -, hrun, -⟩ := exec_next (h.instr _ _) s
    have running := hrun.trans hr
    refine ⟨_, u, decode_bytesAt_handled hd, Handler.handler_instr .., hx, running, ?_⟩
    rw [step_eq_haltCheck hr fetched hx, haltCheck_eq_of_running running]

/-! ### The two places of `OutOfBoundsAccess` -/

/-- The fetch raises `OutOfBoundsAccess` in two cases only: `eip` beyond memory, recorded as it is, and a handled opcode
whose operand does not fit, recorded as `MEM_SIZE`. -/
theorem fetchInstr_eq_outOfBoundsAccess_iff {s : State} {offset : Word} :
    fetchInstr s = .error (.outOfBoundsAccess offset) ↔
      (Config.memSize ≤ s.eip.toNat ∧ offset = s.eip) ∨
      (s.eip.toNat < Config.memSize ∧
        (∃ h, dispatch (s.mem.byteAt s.eip.toNat) = some h ∧ Config.memSize < s.eip.toNat + 1 + h.operandBytes) ∧
        offset = BitVec.ofNat 32 Config.memSize) := by
  rcases Nat.lt_or_ge s.eip.toNat Config.memSize with inMem | beyond
  · cases hd : dispatch (s.mem.byteAt s.eip.toNat) with
    | none => simp [fetchInstr_unimplemented inMem hd, Nat.not_le.mpr inMem]
    | some h =>
      rw [fetchInstr_handled inMem hd]
      rcases Nat.lt_or_ge Config.memSize (s.eip.toNat + 1 + h.operandBytes) with cut | fits
      · simp [fetchOperands_eq_error inMem cut, outOfBoundsAt, inMem, cut, Nat.not_le.mpr inMem, eq_comm]
      · simp [fetchOperands_eq_ok fits, Nat.not_le.mpr inMem, Nat.not_lt.mpr fits]
  · simp [fetchInstr_beyond beyond, beyond, Nat.not_lt.mpr beyond, eq_comm]

/-- A step ends in OUT_OF_BOUNDS exactly where its fetch raises `OutOfBoundsAccess`. -/
theorem step_outOfBounds_iff {s t : State} (h : step s = .next t) :
    t.runState = .outOfBounds ↔ ∃ offset, fetchInstr s = .error (.outOfBoundsAccess offset) := by
  obtain ⟨hr, ⟨r, hf, rfl⟩ | ⟨i, u, hf, hx, rfl⟩⟩ := step_next_cases h
  · cases r <;> simp [hf, FaultRecord.runState]
  · rw [haltCheck_runState, (exec_runState_fault hx).1, hr, hf]
    split <;> simp

/-- A step records the fault its fetch raises. -/
theorem step_fault_of_fetchInstr_eq_error {s t : State} {r : FaultRecord} (h : step s = .next t)
    (hf : fetchInstr s = .error r) : t.fault = some r := by
  obtain ⟨hr, -⟩ := step_next_cases h
  cases (step_eq_error hr hf).symm.trans h
  exact raise_fault r s

/-- Which opcode bytes in memory have an operand that does not fit below `MEM_SIZE`. -/
theorem operand_beyond_iff {b : Byte} {a : Nat} (inMem : a < Config.memSize) :
    (∃ h, dispatch b = some h ∧ Config.memSize < a + 1 + h.operandBytes) ↔
      (0xB8 ≤ b.toNat ∧ b.toNat ≤ 0xBF ∧ Config.memSize - 4 ≤ a) ∨ (b = 0xE9 ∧ Config.memSize - 4 ≤ a) ∨
        (b = 0xEB ∧ a = Config.memSize - 1) := by
  constructor
  · rintro ⟨h, hd, cut⟩
    rcases dispatch_eq_some.mp hd with ⟨rfl, low, high⟩ | ⟨rfl, hb⟩ | ⟨rfl, hb⟩ <;> rw [Handler.operandBytes] at cut
    · exact .inl ⟨low, high, by omega⟩
    · exact .inr (.inl ⟨hb, by omega⟩)
    · exact .inr (.inr ⟨hb, by omega⟩)
  · rintro (⟨low, high, last⟩ | ⟨rfl, last⟩ | ⟨rfl, last⟩)
    · exact ⟨_, dispatch_of_movRange low high, by rw [Handler.operandBytes]; omega⟩
    · exact ⟨.jmpRel32, rfl, by rw [Handler.operandBytes]; omega⟩
    · exact ⟨.jmpRel8, rfl, by rw [Handler.operandBytes]; omega⟩

/-- Settles O21: a step into OUT_OF_BOUNDS is traced to its fetch, whose two cases are the two places and give the
offsets; the bytes of the second are read off the dispatch table. -/
theorem outOfBoundsArisesInTwoPlacesOnly : Obligations.OutOfBoundsArisesInTwoPlacesOnly := by
  intro s hr
  obtain ⟨t, hs⟩ := step_running hr
  refine ⟨t, hs, ?_, fun _ beyond => step_fault_of_fetchInstr_eq_error hs (fetchInstr_beyond beyond),
    fun stopped inMem => ?_⟩
  · rw [step_outOfBounds_iff hs, ← and_congr_right operand_beyond_iff]
    simp only [fetchInstr_eq_outOfBoundsAccess_iff, exists_or, exists_and_left, exists_eq, and_true]
  · obtain ⟨offset, hf⟩ := (step_outOfBounds_iff hs).mp stopped
    rcases fetchInstr_eq_outOfBoundsAccess_iff.mp hf with ⟨beyond, -⟩ | ⟨-, -, rfl⟩
    · exact absurd inMem (Nat.not_lt.mpr beyond)
    · exact step_fault_of_fetchInstr_eq_error hs hf

end Sys2Proof.Machine
end

section
/-! PROOF. The general statements of 30_encoding.md: decode and encode agree both ways, and the decoder's
rejections. -/

namespace Sys2Proof

/-! ### Decoding what was encoded -/

theorem jmpRel32_wf_iff {d : Int} : (Instr.jmpRel32 d).wf = true ↔ -2147483648 ≤ d ∧ d ≤ 2147483647 := by
  simp [Instr.wf]

theorem jmpRel8_wf_iff {d : Int} : (Instr.jmpRel8 d).wf = true ↔ -128 ≤ d ∧ d ≤ 127 := by
  simp [Instr.wf]

/-- Reading a bit vector of `n` bytes back from its bytes. -/
theorem ofNat_leNat_leBytes (n : Nat) (v : BitVec (8 * n)) : BitVec.ofNat (8 * n) (leNat (leBytes n v.toNat)) = v := by
  have width : 256 ^ n = 2 ^ (8 * n) := (Nat.pow_mul 2 8 n).symm
  rw [leNat_leBytes, width, Nat.mod_eq_of_lt v.isLt, BitVec.ofNat_toNat, BitVec.setWidth_eq]

/-- The fields of a well-formed instruction's encoding make up the instruction again. -/
theorem instr_of_encode {i : Instr} (wf : i.wf = true) {opcode : Byte} {operand : List Byte}
    (henc : encode i = opcode :: operand) : i.handler.instr opcode (leNat operand) = i := by
  cases i with
  | movR32Imm32 r imm =>
    obtain ⟨rfl, rfl⟩ := List.cons.inj henc
    exact congrArg₂ Instr.movR32Imm32 (regOfOpcode_ofIndex r) (ofNat_leNat_leBytes 4 imm)
  | jmpRel32 d =>
    obtain ⟨rfl, rfl⟩ := List.cons.inj henc
    obtain ⟨low, high⟩ := jmpRel32_wf_iff.mp wf
    have operand := congrArg signed32 (ofNat_leNat_leBytes 4 (BitVec.ofInt 32 d))
    exact congrArg Instr.jmpRel32 (operand.trans (signed32_ofInt low high))
  | jmpRel8 d =>
    obtain ⟨rfl, rfl⟩ := List.cons.inj henc
    obtain ⟨low, high⟩ := jmpRel8_wf_iff.mp wf
    have operand := congrArg signed8 (ofNat_leNat_leBytes 1 (BitVec.ofInt 8 d))
    exact congrArg Instr.jmpRel8 (operand.trans (signed8_ofInt low high))

theorem decode_encode {i : Instr} (wf : i.wf = true) (rest : List Byte) :
    decode (encode i ++ rest) = .ok (i, rest) := by
  obtain ⟨opcode, operand, henc, hd, hlen⟩ := Laws.EncodedShape.all i
  rw [henc, List.cons_append, decode_ok hd (by simp [hlen]), List.take_left' hlen, List.drop_left' hlen,
    instr_of_encode wf henc]

/-- Settles O4: the encoding is an opcode byte of the instruction's handler and that handler's number of operand
bytes, so the decoder cuts it off there, and its fields make up the instruction again. -/
theorem decodeOfEncodeIsTheInstruction : Obligations.DecodeOfEncodeIsTheInstruction :=
  fun _ rest wf => decode_encode wf rest

/-! ### Encoding what was decoded -/

/-- Writing the number of `n` bytes as a bit vector gives the bytes back. -/
theorem leBytes_ofNat_leNat {n : Nat} {bs : List Byte} (h : bs.length = n) :
    leBytes n (BitVec.ofNat (8 * n) (leNat bs)).toNat = bs := by
  subst h
  have fits : leNat bs < 2 ^ (8 * bs.length) := Nat.pow_mul 2 8 bs.length ▸ leNat_lt bs
  rw [BitVec.toNat_ofNat, Nat.mod_eq_of_lt fits, leBytes_leNat]

/-- The operand bytes of an encoding are those the instruction was made from. -/
theorem encode_instr {b : Byte} {h : Handler} (hd : dispatch b = some h) {operand : List Byte}
    (hlen : operand.length = h.operandBytes) : encode (h.instr b (leNat operand)) = b :: operand := by
  cases h with
  | movR32Imm32 =>
    exact congrArg₂ List.cons (movOpcode_of_dispatch hd) (leBytes_ofNat_leNat hlen)
  | jmpRel32 =>
    have hb : b = 0xE9#8 := by simpa using dispatch_eq_some.mp hd
    rw [Handler.instr, encode, ofInt_signed32]
    exact congrArg₂ List.cons hb.symm (leBytes_ofNat_leNat hlen)
  | jmpRel8 =>
    have hb : b = 0xEB#8 := by simpa using dispatch_eq_some.mp hd
    rw [Handler.instr, encode, ofInt_signed8]
    exact congrArg₂ List.cons hb.symm (leBytes_ofNat_leNat hlen)

/-- Settles O5: an accepted list is an opcode byte with a handler, its operand bytes and the rest; the instruction made
of them encodes to the first two. -/
theorem encodeOfDecodeIsTheBytes : Obligations.EncodeOfDecodeIsTheBytes := by
  intro bytes rest i accepted
  obtain ⟨b, tail, h, rfl, hd, hlen, rfl, rfl⟩ := decode_eq_ok accepted
  refine ⟨Handler.instr_wf h b _, ?_⟩
  rw [encode_instr hd (List.length_take_of_le hlen), List.cons_append, List.take_append_drop]

/-! ### Rejections -/

/-- Settles O6: by the dispatch of the first byte and, where it has a handler, by whether its operand is there; each of
the three cases has its own answer. -/
theorem decoderRejectsExactlyByName : Obligations.DecoderRejectsExactlyByName := by
  refine ⟨rfl, fun b rest => ?_⟩
  cases hd : dispatch b with
  | none => simp [decode_unimplemented hd]
  | some h =>
    rcases Nat.lt_or_ge rest.length h.operandBytes with cut | fits
    · simp [decode_truncated hd cut, cut]
    · simp [decode_ok hd fits, fits]

/-- Settles O1: the decoder evaluated on each word. -/
theorem specWordsDecodeToTheirInstructions : Obligations.SpecWordsDecodeToTheirInstructions :=
  ⟨rfl, rfl, rfl, rfl, rfl, rfl, rfl⟩

end Sys2Proof
end

section
/-! PROOF. The instructions' meanings and the step on the bytes at `eip`: the frames of MOV and the jumps, where a jump
goes, assembled jumps (30_encoding.md section 6) and placed instructions. -/

namespace Sys2Proof.Machine

/-! ### The meanings -/

/-- Settles O9: the two assignments of the handler, read back field by field. -/
theorem movWritesOneRegisterAndAdvances : Obligations.MovWritesOneRegisterAndAdvances := by
  intro r imm s
  refine ⟨_, rfl, ?_, fun q hq => ?_, add32_natCast s.eip 5, by simp, by simp, by simp, by simp⟩
  · rw [State.setEip_reg, State.reg_setReg_same]
  · rw [State.setEip_reg, State.reg_setReg_ne s imm hq]

/-- Both jumps are one relative jump, by their length. -/
theorem exec_jump {d length : Int} {i : Instr} (h : (i = .jmpRel32 d ∧ length = 5) ∨ (i = .jmpRel8 d ∧ length = 2))
    (s : State) : ∃ n : Nat, length = n ∧ exec i s = .next (s.jumpRelative d n) := by
  rcases h with ⟨rfl, rfl⟩ | ⟨rfl, rfl⟩
  · exact ⟨5, rfl, rfl⟩
  · exact ⟨2, rfl, rfl⟩

/-- Settles O10: both jumps are the relative jump, whose target is the sum modulo 2^32 and whose frame is all but
`eip`. -/
theorem jumpsWriteOnlyTheInstructionPointer : Obligations.JumpsWriteOnlyTheInstructionPointer := by
  intro d s i length jump
  obtain ⟨n, rfl, hx⟩ := exec_jump jump s
  exact ⟨_, hx, s.jumpRelative_eip_toNat d n, by simp⟩

/-- Settles O15: from an `eip` in memory and a displacement in range, the sum lies between `low - 2^32` and 2^32, so the
modulus adds 2^32 once to a negative sum and leaves any other. -/
theorem negativeJumpTargetsWrapFarAboveMemory : Obligations.NegativeJumpTargetsWrapFarAboveMemory := by
  intro s d i length low inMem wf jump
  rw [Config.memSize] at inMem
  have range : low - 4294967296 ≤ d + length ∧ d + length < 4294967296 - 1048576 ∧ 0 < low := by
    rcases jump with ⟨rfl, rfl, rfl⟩ | ⟨rfl, rfl, rfl⟩
    · have := jmpRel32_wf_iff.mp wf
      omega
    · have := jmpRel8_wf_iff.mp wf
      omega
  obtain ⟨n, rfl, hx⟩ := exec_jump (jump.imp (fun h => ⟨h.1, h.2.1⟩) fun h => ⟨h.1, h.2.1⟩) s
  have sum := s.jumpRelative_eip_toNat d n
  refine ⟨_, hx, by omega, by omega, ?_⟩
  rw [← BitVec.toNat_inj, show (0 : Word).toNat = 0 from rfl]
  omega

/-! ### The bytes at `eip` -/

theorem Memory.take_bytesAt (m : Memory) (a : Nat) {k n : Nat} (h : k ≤ n) :
    (m.bytesAt a n).take k = m.bytesAt a k := by
  apply List.ext_getElem
  · simp [h]
  · intro i _ _
    rw [List.getElem_take, Memory.getElem_bytesAt, Memory.getElem_bytesAt]

section decode
variable {s : State} {n : Nat} {i : Instr} {rest : List Byte}

/-- What the decoder reads from bytes in memory at `eip` is what the fetch answers. -/
theorem fetchInstr_of_decode (inBounds : s.eip.toNat + n ≤ Config.memSize)
    (accepted : decode (s.mem.bytesAt s.eip.toNat n) = .ok (i, rest)) : fetchInstr s = .ok i := by
  obtain ⟨b, tail, h, bytes, hd, hlen, rfl, -⟩ := decode_eq_ok accepted
  cases n with
  | zero => contradiction
  | succ n =>
    obtain ⟨rfl, rfl⟩ := List.cons.inj bytes
    rw [Memory.length_bytesAt] at hlen
    rw [Memory.take_bytesAt _ _ hlen]
    exact (fetchInstr_eq_ok_iff (by omega) hd).mpr ⟨by rw [Handler.length]; omega, rfl⟩

/-- The step on bytes that decode: the instruction's meaning, then the halt check. -/
theorem step_of_decode (hr : s.runState = .running) (inBounds : s.eip.toNat + n ≤ Config.memSize)
    (accepted : decode (s.mem.bytesAt s.eip.toNat n) = .ok (i, rest)) :
    ∃ u, exec i s = .next u ∧ step s = .next (haltCheck u) := by
  obtain ⟨u, hx, -⟩ := exec_next i s
  exact ⟨u, hx, step_eq_haltCheck hr (fetchInstr_of_decode inBounds accepted) hx⟩

end decode

theorem haltCheck_eq_ite (u : State) : haltCheck u = if u.eip = 0 then { u with runState := .halted } else u := by
  split
  · next zero => exact haltCheck_of_zero u zero
  · next nonzero => exact haltCheck_of_ne_zero u nonzero

/-- Settles O8: the fetch answers what the decoder reads, and the step goes on with its meaning and the halt check. -/
theorem stepRunsTheDecodedInstruction : Obligations.StepRunsTheDecodedInstruction := by
  intro s n i rest hr inBounds accepted
  obtain ⟨u, hx, hs⟩ := step_of_decode hr inBounds accepted
  exact ⟨u, hx, by rw [hs, haltCheck_eq_ite]⟩

/-! ### Assembled jumps -/

/-- A displacement that is `target - (eip + length)` modulo 2^32 reaches `target`. -/
theorem State.jumpRelative_eq_setEip {s : State} {target : Word} {d : Int} {n : Nat}
    (h : BitVec.ofInt 32 d = BitVec.ofInt 32 ((target.toNat : Int) - ((s.eip.toNat : Int) + n))) :
    s.jumpRelative d n = s.setEip target := by
  have sum : (s.eip.toNat : Int) + (target.toNat - (s.eip.toNat + n) + n) = target.toNat := by omega
  have reached : add32 (add32 s.eip d) n = target := by
    rw [add32_add32, add32_eq_add, BitVec.ofInt_add, h, ← BitVec.ofInt_add, ← add32_eq_add, add32, sum,
      BitVec.ofInt_natCast, BitVec.ofNat_toNat, BitVec.setWidth_eq]
  rw [State.jumpRelative, reached]

/-- The assembler's jump forms are the encoding of a well-formed jump to the target. -/
theorem exec_of_assembleLine {s : State} {target : Word} {line : AsmLine} {n : Nat} {bytes : List Byte}
    (jump : (line = .jmpNear target ∧ n = 5) ∨ (line = .jmpShort target ∧ n = 2))
    (assembled : assembleLine s.eip line = some bytes) :
    ∃ i : Instr, i.wf = true ∧ encode i = bytes ∧ exec i s = .next (s.setEip target) := by
  rcases jump with ⟨rfl, rfl⟩ | ⟨rfl, rfl⟩
  · exact ⟨.jmpRel32 (nearDisp s.eip target), jmpRel32_wf_iff.mpr (signed32_range _), Option.some.inj assembled,
      congrArg _ (State.jumpRelative_eq_setEip (ofInt_signed32 _))⟩
  · rw [assembleLine, Option.ite_none_right_eq_some] at assembled
    obtain ⟨wf, henc⟩ := assembled
    exact ⟨_, wf, Option.some.inj henc, congrArg _ (State.jumpRelative_eq_setEip rfl)⟩

/-- Settles O16: the bytes decode to the jump they encode, whose meaning sets `eip` to the target; the halt check does
the rest. -/
theorem assembledJumpsReachTheirTargets : Obligations.AssembledJumpsReachTheirTargets := by
  intro s target line n hr inBounds jump assembled
  obtain ⟨i, wf, henc, hx⟩ := exec_of_assembleLine jump assembled
  have accepted : decode (s.mem.bytesAt s.eip.toNat n) = .ok (i, []) := by
    rw [← henc, ← decode_encode wf [], List.append_nil]
  rw [step_eq_haltCheck hr (fetchInstr_of_decode inBounds accepted) hx,
    haltCheck_eq_of_running (u := s.setEip target) hr]
  rfl

/-! ### Placed instructions -/

theorem placeAddress_fits (s : State) : (placeAddress s).toNat + Config.maxInstrBytes ≤ Config.memSize := by
  unfold placeAddress
  split
  · assumption
  · decide

/-- The bytes placed stand where the next step fetches. -/
theorem bytesAt_withFetchWord {s : State} (hm : s.mem.wf = true) (nbits w : Nat) :
    (s.withFetchWord nbits w).mem.bytesAt (placeAddress s).toNat Config.maxInstrBytes = tableWordBytes nbits w := by
  have hlen : (tableWordBytes nbits w).length = Config.maxInstrBytes := length_leBytes _ _
  rw [← hlen]
  exact Memory.bytesAt_setBytes hm (hlen ▸ placeAddress_fits s)

theorem decode_of_decodeTableWord {nbits w : Nat} {i : Instr} (h : decodeTableWord nbits w = some i) :
    ∃ rest, decode (tableWordBytes nbits w) = .ok (i, rest) := by
  unfold decodeTableWord at h
  split at h
  · next j rest accepted => exact ⟨rest, Option.some.inj h ▸ accepted⟩
  · contradiction

theorem State.withFetchWord_reg (s : State) (nbits w : Nat) (r : Reg) : (s.withFetchWord nbits w).reg r = s.reg r := by
  cases r <;> rfl

/-- Settles O44: the bytes placed are in memory at the new `eip`, so the step runs what they decode to; placing writes
no register and no flags. -/
theorem placedInstructionIsRunNext : Obligations.PlacedInstructionIsRunNext := by
  intro s nbits w i hm word
  obtain ⟨rest, accepted⟩ := decode_of_decodeTableWord word
  rw [← bytesAt_withFetchWord hm nbits w] at accepted
  obtain ⟨u, hx, hs⟩ := step_of_decode (s := s.withFetchWord nbits w) rfl (placeAddress_fits s) accepted
  exact ⟨u, hx, by rw [hs, haltCheck_eq_ite], s.withFetchWord_reg nbits w, rfl⟩

end Sys2Proof.Machine
end

section
/-! PROOF. Faults, terminal states and the end of a run (40_fetch_decode_dispatch.md section 4, 60_exceptions.md
sections 3 and 4, 70_reset_and_hazards.md sections 3 and 5). -/

namespace Sys2Proof.Machine

/-! ### Faults and terminal states -/

/-- Settles O19: the bounds check of `eip` comes first, and `raise` writes its record. -/
theorem instructionPointerBeyondMemoryFaults : Obligations.InstructionPointerBeyondMemoryFaults :=
  fun _ hr beyond => step_beyond hr beyond

/-- A step that runs a handler ends in RUNNING or HALTED, so a faulted state comes from `raise`. -/
theorem eq_raise_of_step_faulted {s t : State} (h : step s = .next t) (faulted : t.isFaulted = true) :
    ∃ r, t = raise r s := by
  obtain ⟨hr, ⟨r, -, rfl⟩ | ⟨i, u, -, hx, rfl⟩⟩ := step_next_cases h
  · exact ⟨r, rfl⟩
  · rw [State.isFaulted, haltCheck_runState, (exec_runState_fault hx).1, hr] at faulted
    split at faulted <;> contradiction

/-- Settles O23: a faulted state is the one before with `run_state` and `fault` written. -/
theorem faultsArePrecise : Obligations.FaultsArePrecise := by
  intro s t hs faulted
  obtain ⟨r, rfl⟩ := eq_raise_of_step_faulted hs faulted
  simp

/-- Settles O24: RUNNING always has a next state; elsewhere the step stops at once, and so does a run. -/
theorem terminalStatesAreAbsorbing : Obligations.TerminalStatesAreAbsorbing :=
  fun _ => ⟨⟨fun ⟨_, hs⟩ => (step_next_cases hs).1, step_running⟩, fun hr => ⟨step_stopped hr, runFor_stopped hr⟩⟩

/-- A step that stays in RUNNING ran a handler whose `eip` passed the halt check. -/
theorem eip_ne_zero_of_step_running {s t : State} (h : step s = .next t) (hr : t.runState = .running) :
    t.eip ≠ 0 := by
  obtain ⟨-, ⟨r, -, rfl⟩ | ⟨i, u, -, -, rfl⟩⟩ := step_next_cases h
  · exact absurd hr r.runState_ne_running
  · intro zero
    rw [haltCheck_runState_of_eip_eq_zero zero] at hr
    contradiction

/-- Settles O33: a run still in RUNNING took its last step from a state in RUNNING, and that step's halt check let
`eip` pass. -/
theorem runningNeverResumesAtAddressZero : Obligations.RunningNeverResumesAtAddressZero := by
  intro n s
  rw [runFor_add]
  intro running
  by_cases hr : (runFor n s).runState = .running
  · obtain ⟨t, ht⟩ := step_running hr
    rw [runFor_succ ht] at running ⊢
    exact eip_ne_zero_of_step_running ht running
  · rw [runFor_stopped hr] at running
    exact absurd running hr

/-! ### The end of a run -/

section ends
variable {s t u : State}

/-- Past its end a run stays there. -/
theorem runFor_of_le {m n : Nat} (hmn : m ≤ n) (ended : (runFor m s).runState ≠ .running) :
    runFor n s = runFor m s := by
  obtain ⟨k, rfl⟩ := Nat.exists_eq_add_of_le hmn
  rw [runFor_add, runFor_stopped ended]

theorem State.endsIn_unique (ht : s.endsIn t) (hu : s.endsIn u) : t = u := by
  obtain ⟨m, rfl, tEnds⟩ := ht
  obtain ⟨n, rfl, uEnds⟩ := hu
  rcases Nat.le_total m n with hmn | hnm
  · exact (runFor_of_le hmn tEnds).symm
  · exact runFor_of_le hnm uEnds

/-- A state outside RUNNING is final or faulted, never both. -/
theorem State.isFinal_iff_of_stopped (h : t.runState ≠ .running) : t.isFinal = true ↔ t.isFaulted = false := by
  cases hr : t.runState with
  | running => exact absurd hr h
  | halted | unimplemented | outOfBounds => simp [State.isFinal, State.isFaulted, hr]

theorem State.hangs_or_endsIn (s : State) : s.hangs ∨ ∃ t, s.endsIn t := by
  by_cases h : s.hangs
  · exact .inl h
  · obtain ⟨n, ended⟩ := not_forall.mp h
    exact .inr ⟨_, n, rfl, ended⟩

end ends

/-- Settles O34: of two ends the later is reached from the earlier, where no step is defined; the run states outside
RUNNING are the final one and the faulted ones; a run that does not hang leaves RUNNING somewhere. -/
theorem aRunEndsInOneStateOrHangs : Obligations.ARunEndsInOneStateOrHangs := by
  refine ⟨fun _ _ _ => State.endsIn_unique, fun s t ends => ?_, State.hangs_or_endsIn⟩
  obtain ⟨n, rfl, ended⟩ := ends
  exact ⟨State.isFinal_iff_of_stopped ended, fun hangs => ended (hangs n)⟩

end Sys2Proof.Machine
end

section
/-! PROOF. The invariant: every step keeps it, memory is constant during a run, and reset meets it (10_state.md
sections 5, 7 and 9, 20_memory.md section 7). -/

namespace Sys2Proof.Machine

/-! ### The invariant -/

theorem State.inv_iff {s : State} : s.inv = true ↔ s.mem.wf = true ∧ s.coherent = true := by
  rw [State.inv, Bool.and_eq_true]

/-- RUNNING without a record is coherent, wherever `eip` and memory stand. -/
theorem State.coherent_of_running {s : State} (hr : s.runState = .running) (hf : s.fault = none) :
    s.coherent = true := by
  simp [State.coherent, hr, hf]

theorem operandBytes_le_four (h : Handler) : h.operandBytes ≤ 4 := by cases h <;> decide

/-- The record a fetch raises is the one the state shows. -/
theorem coherent_raise {s : State} {r : FaultRecord} (h : fetchInstr s = .error r) : (raise r s).coherent = true := by
  cases r with
  | unimplementedOpcode opcode address =>
    obtain ⟨inMem, hd, rfl, rfl⟩ := fetchInstr_eq_unimplementedOpcode_iff.mp h
    simp [State.coherent, FaultRecord.runState, inMem, hd]
  | outOfBoundsAccess offset =>
    rcases fetchInstr_eq_outOfBoundsAccess_iff.mp h with ⟨beyond, rfl⟩ | ⟨inMem, ⟨hh, -, cut⟩, rfl⟩
    · simp [State.coherent, FaultRecord.runState, beyond]
    · have last : Config.memSize ≤ s.eip.toNat + 4 := by
        have := operandBytes_le_four hh
        omega
      have recorded : Config.memSize < 4294967296 := by decide
      simp [State.coherent, FaultRecord.runState, inMem, last, recorded]

/-- After the halt check the state is in RUNNING, or in HALTED with `eip` at 0. -/
theorem coherent_haltCheck {u : State} (hr : u.runState = .running) (hf : u.fault = none) :
    (haltCheck u).coherent = true := by
  by_cases zero : u.eip = 0
  · simp [haltCheck_of_zero u zero, State.coherent, hf, zero]
  · rw [haltCheck_of_ne_zero u zero]
    exact State.coherent_of_running hr hf

theorem step_mem {s t : State} (h : step s = .next t) : t.mem = s.mem := by
  obtain ⟨-, ⟨r, -, rfl⟩ | ⟨i, u, -, hx, rfl⟩⟩ := step_next_cases h
  · exact raise_mem r s
  · rw [haltCheck_mem, exec_mem hx]

theorem step_inv {s t : State} (hi : s.inv = true) (h : step s = .next t) : t.inv = true := by
  refine State.inv_iff.mpr ⟨step_mem h ▸ (State.inv_iff.mp hi).1, ?_⟩
  obtain ⟨hr, ⟨r, hf, rfl⟩ | ⟨i, u, -, hx, rfl⟩⟩ := step_next_cases h
  · exact coherent_raise hf
  · obtain ⟨hrun, hfault⟩ := exec_runState_fault hx
    exact coherent_haltCheck (hrun.trans hr) (hfault.trans (State.fault_of_inv_running hi hr))

/-- Settles O28: no step writes memory; a step that faults leaves the record its fetch saw, and one that runs a handler
keeps the empty record and is coherent by the halt check. -/
theorem everyStepKeepsTheInvariant : Obligations.EveryStepKeepsTheInvariant :=
  fun _ _ => step_inv

theorem runFor_inv {s : State} (hi : s.inv = true) (n : Nat) : (runFor n s).inv = true :=
  runFor_keeps (P := fun s => s.inv = true) (fun _ _ => step_inv) n s hi

theorem runFor_mem (n : Nat) (s : State) : (runFor n s).mem = s.mem :=
  runFor_keeps (P := fun t => t.mem = s.mem) (fun _ _ same h => (step_mem h).trans same) n s rfl

/-- Settles O30: no step writes memory. -/
theorem memoryIsConstantDuringARun : Obligations.MemoryIsConstantDuringARun :=
  fun n s => ⟨runFor_mem n s, fun _ => by rw [runFor_mem]⟩

/-! ### Reset -/

theorem resetAt_reg {r : Reg} (h : r ≠ .esp) (initEip initEsp : Word) : (State.resetAt initEip initEsp).reg r = 0 := by
  cases r with
  | esp => contradiction
  | eax | ecx | edx | ebx | ebp | esi | edi => rfl

/-- Settles O26: the fields of `State.resetAt`; its empty memory reads as 0 everywhere. -/
theorem resetZeroesRegistersAndMemory : Obligations.ResetZeroesRegistersAndMemory :=
  ⟨fun initEip initEsp => ⟨fun _ h => resetAt_reg h initEip initEsp, State.resetAt_flags _ _,
    fun a _ => Memory.byteAt_nil a, State.resetAt_runState _ _, State.resetAt_fault _ _⟩, rfl⟩

theorem resetAt_inv (initEip initEsp : Word) : (State.resetAt initEip initEsp).inv = true :=
  State.inv_iff.mpr ⟨rfl, State.coherent_of_running (State.resetAt_runState _ _) (State.resetAt_fault _ _)⟩

/-- Settles O27: reset leaves the empty memory, which is canonical, and RUNNING without a record. -/
theorem resetMeetsTheInvariant : Obligations.ResetMeetsTheInvariant :=
  ⟨resetAt_inv, resetAt_inv Config.initEip Config.initEsp⟩

end Sys2Proof.Machine
end

section
/-! PROOF. What a step and a run depend on: `eip`, memory and `run_state` alone (10_state.md section 2,
40_fetch_decode_dispatch.md section 5), and of memory the bytes of the instruction alone (20_memory.md section 4). -/

namespace Sys2Proof.Machine

/-! ### Two runs side by side -/

/-- What the course of a run depends on is the same in both states. -/
structure SameCourse (s t : State) : Prop where
  eip : s.eip = t.eip
  mem : s.mem = t.mem
  runState : s.runState = t.runState

/-- From `s` to `s'` and from `t` to `t'` the same was done: the two end on the same course, with the same new record
or neither with a new one, and each register was written with the same value or in neither. -/
structure SameEffect (s t s' t' : State) : Prop extends SameCourse s' t' where
  fault : s'.fault = t'.fault ∨ (s'.fault = s.fault ∧ t'.fault = t.fault)
  reg : ∀ r, s'.reg r = t'.reg r ∨ (s'.reg r = s.reg r ∧ t'.reg r = t.reg r)

section sameEffect
variable {s t s' t' s'' t'' : State}

/-- Doing nothing. -/
theorem SameCourse.sameEffect (h : SameCourse s t) : SameEffect s t s t :=
  { h with fault := .inr ⟨rfl, rfl⟩, reg := fun _ => .inr ⟨rfl, rfl⟩ }

/-- An item kept by the second part of a run has what the first part gave it. -/
theorem same_or_kept_trans {α : Type} {a b a' b' a'' b'' : α} (h : a' = b' ∨ (a' = a ∧ b' = b))
    (h' : a'' = b'' ∨ (a'' = a' ∧ b'' = b')) : a'' = b'' ∨ (a'' = a ∧ b'' = b) := by
  rcases h' with same | ⟨rfl, rfl⟩
  · exact .inl same
  · exact h

theorem SameEffect.trans (h : SameEffect s t s' t') (h' : SameEffect s' t' s'' t'') : SameEffect s t s'' t'' :=
  { h'.toSameCourse with
    fault := same_or_kept_trans h.fault h'.fault
    reg := fun r => same_or_kept_trans (h.reg r) (h'.reg r) }

/-- The fetch reads `eip` and memory alone. -/
theorem fetchInstr_congr (h : SameCourse s t) : fetchInstr s = fetchInstr t := by
  obtain ⟨regs, flags, eip, mem, runState, fault⟩ := s
  obtain ⟨regs', flags', eip', mem', runState', fault'⟩ := t
  obtain ⟨rfl, rfl, rfl⟩ := h
  rfl

/-- No handler reads a register: MOV writes its immediate, a jump no register. -/
theorem exec_sameEffect {i : Instr} (h : SameCourse s t) (hs : exec i s = .next s') (ht : exec i t = .next t') :
    SameEffect s t s' t' := by
  obtain ⟨heip, hmem, hrun⟩ := h
  cases i with
  | movR32Imm32 r imm =>
    cases hs
    cases ht
    refine { eip := ?_, mem := ?_, runState := ?_, fault := .inr ?_, reg := fun q => ?_ }
    · simp [heip]
    · simpa using hmem
    · simpa using hrun
    · simp
    · by_cases hq : q = r
      · exact .inl (by simp [hq])
      · exact .inr (by simp [State.reg_setReg, hq])
  | jmpRel32 d | jmpRel8 d =>
    cases hs
    cases ht
    exact { eip := by simp [State.jumpRelative_eip, heip], mem := hmem, runState := hrun,
            fault := .inr ⟨rfl, rfl⟩, reg := fun _ => .inr (by simp) }

theorem SameEffect.haltCheck (h : SameEffect s t s' t') :
    SameEffect s t (Machine.haltCheck s') (Machine.haltCheck t') := by
  refine { eip := ?_, mem := ?_, runState := ?_, fault := ?_, reg := ?_ }
  · simpa using h.eip
  · simpa using h.mem
  · rw [haltCheck_runState, haltCheck_runState, h.eip, h.runState]
  · simpa using h.fault
  · simpa using h.reg

theorem step_sameEffect (h : SameCourse s t) (hs : step s = .next s') :
    ∃ t', step t = .next t' ∧ SameEffect s t s' t' := by
  obtain ⟨hr, ⟨r, hf, rfl⟩ | ⟨i, u, hf, hx, rfl⟩⟩ := step_next_cases hs
  · refine ⟨raise r t, step_eq_error (h.runState ▸ hr) (fetchInstr_congr h ▸ hf), ?_⟩
    exact { eip := h.eip, mem := h.mem, runState := rfl, fault := .inl rfl, reg := fun _ => .inr (by simp) }
  · obtain ⟨v, hv, -⟩ := exec_next i t
    exact ⟨Machine.haltCheck v, step_eq_haltCheck (h.runState ▸ hr) (fetchInstr_congr h ▸ hf) hv,
      (exec_sameEffect h hx hv).haltCheck⟩

end sameEffect

theorem runFor_sameEffect (n : Nat) {s t : State} (h : SameCourse s t) : SameEffect s t (runFor n s) (runFor n t) := by
  induction n generalizing s t with
  | zero => exact h.sameEffect
  | succ n ih =>
    by_cases hr : s.runState = .running
    · obtain ⟨s', hs⟩ := step_running hr
      obtain ⟨t', ht, first⟩ := step_sameEffect h hs
      rw [runFor_succ hs, runFor_succ ht]
      exact first.trans (ih first.toSameCourse)
    · rw [runFor_stopped hr, runFor_stopped (h.runState ▸ hr)]
      exact h.sameEffect

/-- Settles O31: two runs on the same course do the same at each step, and so altogether. -/
theorem generalRegistersNeverSteerARun : Obligations.GeneralRegistersNeverSteerARun := by
  intro n s t heip hmem hrun
  have same := runFor_sameEffect n ⟨heip, hmem, hrun⟩
  refine ⟨same.eip, same.runState, fun old => ?_, same.reg⟩
  rcases same.fault with new | ⟨hs, ht⟩
  · exact new
  · rw [hs, ht, old]

/-! ### Another memory -/

section memory
variable {s : State} {m : Memory}

theorem Memory.bytesAt_congr {m m' : Memory} {a n : Nat} (h : ∀ i < n, m.byteAt (a + i) = m'.byteAt (a + i)) :
    m.bytesAt a n = m'.bytesAt a n := by
  apply List.ext_getElem
  · simp
  · intro i hi _
    rw [Memory.getElem_bytesAt, Memory.getElem_bytesAt]
    exact h i (by simpa using hi)

/-- In a memory that agrees on the bytes of the instruction the fetch answers the same. -/
theorem fetchInstr_withMem
    (agree : ∀ a, s.eip.toNat < Config.memSize → s.eip.toNat ≤ a →
      a < s.eip.toNat + ((dispatch (s.mem.byteAt s.eip.toNat)).map Handler.length).getD 1 →
      m.byteAt a = s.mem.byteAt a) : fetchInstr { s with mem := m } = fetchInstr s := by
  rcases Nat.lt_or_ge s.eip.toNat Config.memSize with inMem | beyond
  · cases hd : dispatch (s.mem.byteAt s.eip.toNat) with
    | none =>
      have opcode : m.byteAt s.eip.toNat = s.mem.byteAt s.eip.toNat := agree _ inMem le_rfl (by simp [hd])
      rw [fetchInstr_unimplemented inMem hd,
        fetchInstr_unimplemented (s := { s with mem := m }) inMem (by rw [opcode, hd]), opcode]
    | some h =>
      have opcode : m.byteAt s.eip.toNat = s.mem.byteAt s.eip.toNat :=
        agree _ inMem le_rfl (by simp [hd, Handler.length])
      have operand : m.bytesAt (s.eip.toNat + 1) h.operandBytes = s.mem.bytesAt (s.eip.toNat + 1) h.operandBytes :=
        Memory.bytesAt_congr fun i hi => agree _ inMem (by omega) (by simp [hd, Handler.length]; omega)
      rw [fetchInstr_handled inMem hd,
        fetchInstr_handled (s := { s with mem := m }) inMem (by rw [opcode, hd]), opcode]
      rcases Nat.lt_or_ge Config.memSize (s.eip.toNat + 1 + h.operandBytes) with cut | fits
      · rw [fetchOperands_eq_error inMem cut, fetchOperands_eq_error (s := { s with mem := m }) inMem cut]
      · rw [fetchOperands_eq_ok fits, fetchOperands_eq_ok (s := { s with mem := m }) fits, operand]
  · rw [fetchInstr_beyond beyond, fetchInstr_beyond (s := { s with mem := m }) beyond]

variable (m)

theorem State.setReg_withMem (s : State) (r : Reg) (v : Word) :
    { s with mem := m }.setReg r v = { s.setReg r v with mem := m } := by
  cases r <;> rfl

theorem exec_withMem {i : Instr} {t : State} (h : exec i s = .next t) :
    exec i { s with mem := m } = .next { t with mem := m } := by
  cases i with
  | movR32Imm32 r imm =>
    cases h
    simp only [exec, execMovR32Imm32, State.setReg_withMem, State.setEip]
  | jmpRel32 d => cases h; rfl
  | jmpRel8 d => cases h; rfl

theorem haltCheck_withMem (s : State) : haltCheck { s with mem := m } = { haltCheck s with mem := m } := by
  by_cases h : s.eip = 0
  · rw [haltCheck_of_zero s h, haltCheck_of_zero { s with mem := m } h]
  · rw [haltCheck_of_ne_zero s h, haltCheck_of_ne_zero { s with mem := m } h]

end memory

/-- Settles O32: only the fetch reads memory, and it answers the same; the rest of the step carries memory along. -/
theorem stepReadsOnlyItsOwnInstruction : Obligations.StepReadsOnlyItsOwnInstruction := by
  intro s t m hs agree
  have fetched := fetchInstr_withMem agree
  obtain ⟨hr, ⟨r, hf, rfl⟩ | ⟨i, u, hf, hx, rfl⟩⟩ := step_next_cases hs
  · exact step_eq_error hr (fetched.trans hf)
  · rw [step_eq_haltCheck (s := { s with mem := m }) hr (fetched.trans hf) (exec_withMem m hx), haltCheck_withMem]

end Sys2Proof.Machine
end

section
/-! PROOF. `MemRead` (20_memory.md R33) and the host's side: the loader, launched runs, the session, the trace and the
status codes (70_reset_and_hazards.md sections 2 and 3, 60_exceptions.md section 1). -/

namespace Sys2Proof.Machine

/-! ### `MemRead` -/

theorem memRead_one {m : Memory} {a : Nat} (h : a + 1 ≤ Config.memSize) : memRead m a 1 = .ok (m.byteAt a).toNat := by
  rw [memRead_eq_ok h]
  rfl

/-- Four bytes read as a number are the word of the spec's sum. -/
theorem leNat_bytesAt_four (m : Memory) (a : Nat) : leNat (m.bytesAt a 4) = (m.wordAt a).toNat := by
  have fits : leNat (m.bytesAt a 4) < 2 ^ 32 := by simpa using leNat_lt (m.bytesAt a 4)
  rw [Memory.wordAt_eq, BitVec.toNat_ofNat, Nat.mod_eq_of_lt fits]

/-- Settles O36: in bounds the read is the number of its bytes, each byte its eight bits; out of bounds the offset is
the first address of the range or `MEM_SIZE`, whichever is higher, and the addresses below it are in memory. -/
theorem memReadAssemblesLittleEndianOrFaults : Obligations.MemReadAssemblesLittleEndianOrFaults := by
  refine fun m addr => ⟨memRead_one, fun inBounds => ?_, fun n width cut => ?_⟩
  · refine ⟨_, memRead_eq_ok inBounds, ?_, leNat_bytesAt_four m addr, fun i hi => ?_⟩
    · rw [leNat_bytesAt_four]
      exact (m.wordAt addr).isLt
    · rw [Memory.byteAt_eq_leNat_bytesAt m addr 4 hi, BitVec.toNat_ofNat]
  · exact ⟨_, memRead_eq_error (by omega) cut, by omega, by omega, by omega, by omega⟩

/-! ### The loader -/

section load
variable {loadBase : Word} {image : List Byte} {loadMax : Nat} {s t : State}

/-- The bytes the loader copies (70_reset_and_hazards.md R111). -/
def loadedBytes (image : List Byte) (loadMax : Nat) : List Byte := image.take (loadCount image loadMax)

theorem length_loadedBytes : (loadedBytes image loadMax).length = min image.length loadMax := by
  simp [loadedBytes, loadCount]

theorem getElem?_loadedBytes {i : Nat} (h : i < image.length) (hmax : i < loadMax) :
    (loadedBytes image loadMax)[i]? = some image[i] := by
  rw [loadedBytes, loadCount, List.getElem?_take_of_lt (by omega), List.getElem?_eq_getElem h]

/-- A load that fits is one write of the bytes it copies. -/
theorem load_eq_ok (hm : s.mem.wf = true) (fits : loadBase.toNat + min image.length loadMax ≤ Config.memSize) :
    load loadBase image loadMax s =
      .ok { s with mem := s.mem.setBytes loadBase.toNat (loadedBytes image loadMax) } := by
  have room : ¬ Config.memSize < loadBase.toNat + loadCount image loadMax := Nat.not_lt.mpr fits
  have copied := copyImage_eq_ok hm (a := loadBase.toNat) (bs := loadedBytes image loadMax)
    (.inr (by rwa [length_loadedBytes]))
  rw [load, if_neg room, ← loadedBytes, copied]

theorem load_eq_error (cut : Config.memSize < loadBase.toNat + min image.length loadMax) :
    load loadBase image loadMax s = .error .loaderOverflow := by
  rw [load, loadCount, if_pos cut]

/-- Everything a load that succeeds can do. -/
theorem load_ok_cases (hm : s.mem.wf = true) (h : load loadBase image loadMax s = .ok t) :
    loadBase.toNat + min image.length loadMax ≤ Config.memSize ∧
      t = { s with mem := s.mem.setBytes loadBase.toNat (loadedBytes image loadMax) } := by
  rcases Nat.lt_or_ge Config.memSize (loadBase.toNat + min image.length loadMax) with cut | fits
  · rw [load_eq_error cut] at h
    contradiction
  · rw [load_eq_ok hm fits] at h
    exact ⟨fits, (Except.ok.inj h).symm⟩

/-- The image stands in memory after the write. -/
theorem byteAt_setBytes_loadedBytes {m : Memory} (hm : m.wf = true)
    (fits : loadBase.toNat + min image.length loadMax ≤ Config.memSize) {i : Nat} (h : i < image.length)
    (hmax : i < loadMax) :
    (m.setBytes loadBase.toNat (loadedBytes image loadMax)).byteAt (loadBase.toNat + i) = image[i] := by
  rw [Memory.byteAt_setBytes hm (.inr (by rwa [length_loadedBytes])), if_pos (Nat.le_add_right _ i),
    Nat.add_sub_cancel_left, getElem?_loadedBytes h hmax, Option.getD_some]

theorem wf_setBytes_loadedBytes {m : Memory} (hm : m.wf = true)
    (fits : loadBase.toNat + min image.length loadMax ≤ Config.memSize) :
    (m.setBytes loadBase.toNat (loadedBytes image loadMax)).wf = true :=
  Memory.wf_setBytes hm (.inr (by rwa [length_loadedBytes]))

theorem State.reg_withMem (s : State) (m : Memory) (r : Reg) : { s with mem := m }.reg r = s.reg r := by
  cases r <;> rfl

/-- A load from RUNNING without a record keeps the invariant: it writes memory alone. -/
theorem load_inv (hi : s.inv = true) (hr : s.runState = .running) (h : load loadBase image loadMax s = .ok t) :
    t.inv = true ∧ t.runState = .running := by
  have hm := (State.inv_iff.mp hi).1
  have hf := State.fault_of_inv_running hi hr
  obtain ⟨fits, rfl⟩ := load_ok_cases hm h
  exact ⟨State.inv_iff.mpr ⟨wf_setBytes_loadedBytes hm fits, State.coherent_of_running hr hf⟩, hr⟩

end load

/-- Settles O38: where the image fits the load is one write, whose content and frame are the read-after-write rules;
where it does not, the check before the copy answers. -/
theorem loadCopiesTheImageOrOverflows : Obligations.LoadCopiesTheImageOrOverflows := by
  refine fun loadBase image loadMax s hm => ⟨fun fits => ?_, load_eq_error⟩
  refine ⟨_, load_eq_ok hm fits, wf_setBytes_loadedBytes hm fits,
    fun i hi hmax => byteAt_setBytes_loadedBytes hm fits hi hmax, fun a outside => ?_, State.reg_withMem s _,
    rfl, rfl, rfl, rfl⟩
  rw [← length_loadedBytes] at fits outside
  exact Memory.byteAt_setBytes_outside hm fits outside

/-- Settles O39: reset and load establish the invariant, every step keeps it, and no step writes memory. -/
theorem launchedRunsMeetTheInvariantForever : Obligations.LaunchedRunsMeetTheInvariantForever := by
  intro initEip initEsp loadBase image loadMax s loaded n
  have reset := resetAt_inv initEip initEsp
  refine ⟨runFor_inv (load_inv reset (State.resetAt_runState _ _) loaded).1 n, fun i hi hmax => ?_⟩
  obtain ⟨fits, rfl⟩ := load_ok_cases (State.inv_iff.mp reset).1 loaded
  rw [runFor_mem]
  exact byteAt_setBytes_loadedBytes (State.inv_iff.mp reset).1 fits hi hmax

/-! ### The session -/

section session
variable {phase : Phase} {core : State} {loadBase : Word} {image : List Byte} {loadMax : Nat} {b : Session}
  {reply : Reply} {en : Bool} {n : Nat}

theorem Session.inv_live :
    (Session.live phase core).inv = true ↔ core.inv = true ∧ (phase = .started ∨ core.runState = .running) := by
  simp [Session.inv]

/-- A load is accepted right after a reset and in no other phase. -/
theorem Session.load_accepted_iff :
    (∃ r, Session.load phase core loadBase image loadMax = .ok r) ↔ phase = .afterReset := by
  cases phase with
  | afterReset => cases h : Machine.load loadBase image loadMax core <;> simp [Session.load, h]
  | loaded | overflowed | started => simp [Session.load]

/-- The two replies of an accepted load. -/
theorem Session.load_cases (h : Session.load phase core loadBase image loadMax = .ok (b, reply)) :
    (∃ t, Machine.load loadBase image loadMax core = .ok t ∧ b = .live .loaded t ∧ reply = .loadResult false) ∨
      (Machine.load loadBase image loadMax core = .error .loaderOverflow ∧ b = .live .overflowed core ∧
        reply = .loadResult true) := by
  obtain rfl := Session.load_accepted_iff.mp ⟨_, h⟩
  cases hl : Machine.load loadBase image loadMax core with
  | ok t =>
    simp only [Session.load, hl, Except.ok.injEq, Prod.mk.injEq] at h
    exact .inl ⟨t, rfl, h.1.symm, h.2.symm⟩
  | error e =>
    simp only [Session.load, hl, Except.ok.injEq, Prod.mk.injEq] at h
    exact .inr ⟨rfl, h.1.symm, h.2.symm⟩

/-- A run is accepted where no overflow happened and the core is in RUNNING, and gives the run and its trace. -/
theorem Session.run_eq_ok_iff {r : Session × Reply} :
    Session.run en phase core n = .ok r ↔ (phase ≠ .overflowed ∧ core.runState = .running) ∧
      r = (.live (if n = 0 then phase else .started) (runFor n core), .ran (traceFor en n core)) := by
  by_cases overflow : phase = .overflowed
  · simp [Session.run, overflow]
  · by_cases hr : core.runState = .running
    · simp [Session.run, overflow, hr, eq_comm]
    · simp [Session.run, overflow, hr]

/-- A run of no step keeps its phase and its state; any other is in the phase in which a core may have stopped. -/
theorem Session.run_inv (hi : core.inv = true) (h : Session.run en phase core n = .ok (b, reply)) : b.inv = true := by
  obtain ⟨⟨-, hr⟩, hb⟩ := Session.run_eq_ok_iff.mp h
  obtain ⟨rfl, -⟩ := Prod.mk.inj hb
  refine Session.inv_live.mpr ⟨runFor_inv hi n, ?_⟩
  cases n with
  | zero => exact .inr hr
  | succ n => exact .inl rfl

/-- A load that succeeds leaves the core in RUNNING; one that overflows leaves it as it was. -/
theorem Session.load_inv (hi : (Session.live phase core).inv = true)
    (h : Session.load phase core loadBase image loadMax = .ok (b, reply)) : b.inv = true := by
  obtain rfl := Session.load_accepted_iff.mp ⟨_, h⟩
  obtain ⟨hcore, hstart⟩ := Session.inv_live.mp hi
  have hr : core.runState = .running := hstart.resolve_left (by decide)
  rcases Session.load_cases h with ⟨t, loaded, rfl, -⟩ | ⟨-, rfl, -⟩
  · obtain ⟨ht, htr⟩ := Machine.load_inv hcore hr loaded
    exact Session.inv_live.mpr ⟨ht, .inr htr⟩
  · exact Session.inv_live.mpr ⟨hcore, .inr hr⟩

end session

/-- Settles O40: by the transaction. Reset meets the invariant, a load and a run keep the core's and leave it in RUNNING
as long as no step was asked for, a view changes nothing. -/
theorem everyTransactionKeepsTheSessionInvariant : Obligations.EveryTransactionKeepsTheSessionInvariant := by
  intro en a b x reply hi accepted
  cases x with
  | reset initEip initEsp =>
    cases accepted
    exact Session.inv_live.mpr ⟨resetAt_inv initEip initEsp, .inr (State.resetAt_runState _ _)⟩
  | load loadBase image loadMax =>
    cases a with
    | noCore => contradiction
    | live phase core => exact Session.load_inv hi accepted
  | run stepLimit =>
    cases a with
    | noCore => contradiction
    | live phase core => exact Session.run_inv (Session.inv_live.mp hi).1 accepted
  | view =>
    cases a with
    | noCore => contradiction
    | live phase core => cases accepted; exact hi

/-- Before the first reset only a reset is accepted. -/
theorem transact_noCore_accepted_iff (en : Bool) (x : Transaction) :
    (∃ r, transact en .noCore x = .ok r) ↔ ∃ e p, x = .reset e p := by
  cases x <;> simp [transact]

/-- Settles O41: each clause is the rule of its transaction. -/
theorem hostDutiesAreEnforced : Obligations.HostDutiesAreEnforced := by
  refine ⟨transact_noCore_accepted_iff, fun _ _ _ _ _ _ => Session.load_accepted_iff,
    fun _ _ _ _ _ _ _ _ => Session.load_cases, fun en phase core n => ?_,
    fun en phase core n fit hr => Session.run_eq_ok_iff.mpr ⟨⟨fit, hr⟩, rfl⟩, fun _ a _ _ => ?_, fun _ _ _ => rfl⟩
  · simp only [transact, Session.run_eq_ok_iff, exists_and_left, exists_eq, and_true]
  · cases a <;> rfl

/-! ### The trace and the status codes -/

/-- Settles O42: a record needs a defined step and a fetched opcode; each of the other cases lacks one of the two, or
the trace is off. -/
theorem traceRecordsEachOpcodeFetched : Obligations.TraceRecordsEachOpcodeFetched := by
  refine fun s => ⟨fun hr inMem => ?_, fun beyond => ?_, fun hr => ?_, rfl⟩
  · simp [traceOf, stepUndefined_eq_none.mpr hr, fetchOpcode_eq_ok inMem]
  · simp [traceOf, fetchOpcode_eq_error beyond]
  · simp [traceOf, stepUndefined_eq_none, hr]

/-- Settles O43: the codes, by evaluation. -/
theorem statusCodesAreTheSpecs : Obligations.StatusCodesAreTheSpecs :=
  ⟨rfl, fun _ _ _ => ⟨rfl, rfl, rfl⟩, fun _ => rfl, rfl⟩

end Sys2Proof.Machine
end
